-- ==== Sys2Proof/Word.lean ====
section
/-! DEFINITION. The two word types of the gones CORE (spec/00_scope.md R4: XLEN = 8, ALEN = 16; R6: bit 0 is the least significant bit). -/

namespace Sys2Proof

/-- A byte: registers A, X, Y, SP, P and every memory cell (R4 `XLEN`). -/
abbrev Byte := BitVec 8

/-- A 16-bit value: PC and every Bus address (R4 `ALEN`). -/
abbrev Addr := BitVec 16

end Sys2Proof
end

