-- ==== Sys2Proof/Config.lean ====
section
/-! DEFINITION. The parameters of spec/00_scope.md R4 to which the source itself gives a value. Those the spec takes from general knowledge or leaves open stand in Machine/Params.lean; the instruction table and its costs stand in Decode.lean. -/

namespace Sys2Proof.Config

/-- `RAM_SIZE`, 2 KiB (R4, R35). -/
abbrev ramSize : Nat := 0x0800

/-- `PRG_SIZE`, 16 KiB, one bank (R4, R36; spec decision D13). -/
abbrev prgSize : Nat := 0x4000

/-- `VRAM_SIZE`, what a 14-bit address reaches (R4, R37; spec decision D18). -/
abbrev vramSize : Nat := 0x4000

/-- One unit of the graphics ROM, 8 KiB (R4 `CHR`, R273). -/
abbrev chrUnit : Nat := 0x2000

/-- The largest graphics ROM the one-byte size field of the boot image can name (R273, byte offset 5). -/
abbrev chrMaxSize : Nat := 255 * chrUnit

/-- `PPU_RATIO`, VideoUnit cycles per CPU cycle (R4, R283). -/
abbrev ppuRatio : Nat := 3

/-- `CYCLES_PER_LINE` (R4, R233). -/
abbrev cyclesPerLine : Nat := 341

/-- `LINES_PER_FRAME`, the scanline sentinel value (R4, R233). -/
abbrev linesPerFrame : Nat := 262

/-- `VISIBLE_LINES`, the last scanline value that builds a tile row (R4, R233). -/
abbrev visibleLines : Nat := 240

/-- Pixels in one row of the frame buffer (R41). -/
abbrev fbWidth : Nat := 256

/-- Pixels in the whole frame buffer, 240 rows of 256 (R41). -/
abbrev fbSize : Nat := visibleLines * fbWidth

end Sys2Proof.Config
end

