-- ==== Sys2Proof/Machine/Memory.lean ====
section
/-! DEFINITION. Sparse storage in one canonical form: keys strictly rising, no entry equal to what an unlisted key reads as. Work memory, program ROM, graphics ROM and VideoUnit memory hold bytes; the frame buffer holds pixels (spec/10_state.md R35, R36, R37, R41). -/

namespace Sys2Proof.Machine

/-- Storage cells by key. -/
abbrev Cells (α : Type) := List (Nat × α)

variable {α : Type} [DecidableEq α]

/-- Read one cell; a key that is not listed reads as `d`. -/
def Cells.read (d : α) : Cells α → Nat → α
  | [], _ => d
  | (k', v) :: m, k => if k = k' then v else Cells.read d m k

/-- Put a value that is not the unlisted one at its place in the rising order. -/
def Cells.insert : Cells α → Nat → α → Cells α
  | [], k, v => [(k, v)]
  | (k', v') :: m, k, v =>
    if k < k' then (k, v) :: (k', v') :: m
    else if k = k' then (k, v) :: m
    else (k', v') :: Cells.insert m k v

/-- Write one cell; writing the unlisted value removes the entry. -/
def Cells.write (d : α) (m : Cells α) (k : Nat) (v : α) : Cells α :=
  if v = d then m.filter fun c => c.1 != k else Cells.insert m k v

/-- The entries of the range `lo .. lo + n - 1` whose cell `lo + j` holds `f j`. -/
def Cells.block (d : α) (lo n : Nat) (f : Nat → α) : Cells α :=
  (List.range n).filterMap fun j => if f j = d then none else some (lo + j, f j)

/-- Write the whole range `lo .. lo + n - 1`, cell `lo + j` taking `f j`. -/
def Cells.fill (d : α) (m : Cells α) (lo n : Nat) (f : Nat → α) : Cells α :=
  (m.filter fun c => decide (c.1 < lo)) ++ Cells.block d lo n f
    ++ (m.filter fun c => decide (lo + n ≤ c.1))

/-- Canonical from key `lo` on, below `bound`. -/
def Cells.wfFrom (d : α) (bound : Nat) : Nat → Cells α → Bool
  | _, [] => true
  | lo, (k, v) :: m => decide (lo ≤ k) && decide (k < bound) && decide (v ≠ d) && Cells.wfFrom d bound (k + 1) m

/-- Byte storage: the host's cells. -/
abbrev Memory := List Host.Cell

/-- What a byte of memory that nothing has written reads as. The spec makes launch contents an input (R44); DESIGN CHOICE 0, unsafe, log entry 3. -/
def Memory.unlisted : Byte := 0

/-- Read one byte. -/
def Memory.read (m : Memory) (k : Nat) : Byte := Cells.read Memory.unlisted m k

/-- Write one byte. -/
def Memory.write (m : Memory) (k : Nat) (v : Byte) : Memory := Cells.write Memory.unlisted m k v

/-- The memory is in canonical form and lists addresses below `bound` only. -/
def Memory.wf (bound : Nat) (m : Memory) : Bool := Cells.wfFrom Memory.unlisted bound 0 m

/-- A pixel value. The spec states no pixel format (R236, N11): any natural number; log entry 6. -/
abbrev Pixel := Nat

/-- The frame buffer: `fb[y][x]` is the cell `256 * y + x` (R41). -/
abbrev FrameBuffer := List (Nat × Pixel)

/-- What a pixel that nothing has written reads as. The spec makes the launch contents of `fb` an input (R41, R44); DESIGN CHOICE 0, unsafe, log entry 5. -/
def FrameBuffer.unlisted : Pixel := 0

/-- The cell of the pixel in row `y` and column `x`. -/
def FrameBuffer.cell (y x : Nat) : Nat := Config.fbWidth * y + x

/-- Read the pixel `fb[y][x]`. -/
def FrameBuffer.pixel (fb : FrameBuffer) (y x : Nat) : Pixel :=
  Cells.read FrameBuffer.unlisted fb (FrameBuffer.cell y x)

/-- The frame buffer is in canonical form and lists only its 240 rows of 256 pixels. -/
def FrameBuffer.wf (fb : FrameBuffer) : Bool := Cells.wfFrom FrameBuffer.unlisted Config.fbSize 0 fb

end Sys2Proof.Machine
end

