-- ==== Sys2Proof/Machine/Params.lean ====
section
/-! DEFINITION. The named parameters of spec/00_scope.md R4 whose value the spec takes from general knowledge or leaves open. They stand here, and not in Config.lean, so that a later repair may mend a value. -/

namespace Sys2Proof.Config

/-- `STACK_BASE` (R4, R24; spec decision D4, from general knowledge; log entry 10). -/
abbrev stackBase : Addr := 0x0100

/-- `NT_BASE`, the VideoUnit address of the name table (R4, R231; spec decision D19, from general knowledge; log entry 10). -/
abbrev ntBase : Nat := 0x2000

/-- `RESET_PC`, an OPEN parameter of the spec (R272, D9). DESIGN CHOICE: the value the spec's own test programs use; unsafe, log entry 2. -/
abbrev resetPC : Addr := 0x8000

end Sys2Proof.Config
end

