-- ==== Sys2Proof/Machine/State.lean ====
section
/-! DEFINITION. The state of the gones CORE (spec/10_state.md R20 to R44), the reasons a step can stop, the launch state (spec/70_reset_and_hazards.md R270) and the reset state. -/

namespace Sys2Proof.Machine

/-- The three general registers (R21). -/
inductive Reg where
  | A | X | Y
  deriving DecidableEq, Repr

/-- Which half of the address latch the next address write fills (R38). -/
inductive Toggle where
  | highNext | lowNext
  deriving DecidableEq, Repr

/-- The two fatal conditions with the values they record (R42, R251). -/
inductive FatalCause where
  /-- `UnimplementedOpcode(op, at)`: the opcode byte and the address it was fetched from. -/
  | unimplementedOpcode (op : Byte) (addr : Addr)
  /-- `RomWrite(addr, v)`: the Bus address and the byte that was to be written. -/
  | romWrite (addr : Addr) (v : Byte)
  deriving DecidableEq, Repr

/-- `PALETTE4`: the pixel values of the colour indices 0 to 3 (R236). -/
structure Palette where
  c0 : Pixel
  c1 : Pixel
  c2 : Pixel
  c3 : Pixel
  deriving DecidableEq, Repr

/-- The launch parameters of R4 that no step changes: program ROM (R36), graphics ROM (R239) and palette (R236). The spec calls them parameters; the model holds them beside the state, log entry 7. -/
structure Params where
  prg     : Memory
  chr     : Memory
  palette : Palette
  deriving DecidableEq, Repr

/-- The VideoUnit (R37 to R41). -/
structure Ppu where
  /-- VideoUnit memory, 0x4000 bytes (R37). -/
  vram       : Memory
  /-- High half of the address latch (R38). -/
  latchHi    : Byte
  /-- Low half of the address latch (R38). -/
  latchLo    : Byte
  /-- The latch's write toggle (R38). -/
  toggle     : Toggle
  /-- The data port's delayed read buffer (R39). -/
  readBuffer : Byte
  /-- The cycle accumulator (R40). -/
  cycle      : Nat
  /-- The scanline counter (R40). -/
  scanline   : Nat
  /-- The frame buffer (R41). -/
  fb         : FrameBuffer
  deriving DecidableEq, Repr

/-- Everything the machine holds. -/
structure State where
  /-- Accumulator (R21). -/
  a      : Byte
  /-- Index-X (R22). -/
  x      : Byte
  /-- Index-Y (R23). -/
  y      : Byte
  /-- Stack pointer (R24). -/
  sp     : Byte
  /-- Program counter (R25). -/
  pc     : Addr
  /-- Status flags N V - - D I Z C (R26). -/
  p      : Byte
  /-- Work memory, 0x0800 bytes (R35). -/
  ram    : Memory
  /-- The VideoUnit. -/
  ppu    : Ppu
  /-- `none`, or the fatal cause that halted the machine (R42). -/
  halted : Option FatalCause
  /-- The launch parameters (R4). -/
  params : Params
  deriving DecidableEq, Repr

/-- What an operation that may raise a fatal condition answers (R252): the instruction goes on, or it ended there. -/
inductive Flow where
  | goesOn (s : State)
  | halts (s : State)
  deriving DecidableEq, Repr

/-- Why the machine stops. -/
inductive Fault where
  /-- Raised by `systemStep` on a halted state only: R252, `run` and `Step` are undefined there (93_implementation_defined.md U10, `stuck`). Safe: no step follows. Log entry 8. -/
  | halted (cause : FatalCause)
  deriving DecidableEq, Repr

/-- Why the model refuses. -/
inductive Refusal where
  /-- An instruction of the table that has no meaning yet; raised by `exec`'s arms alone. No arm of this model raises it. Safe. -/
  | notModelled (mnemonic : String)
  /-- Raised by the loader alone: the image ends before its header or its blocks do (R265). Safe: no machine is built. -/
  | truncatedImage
  /-- Raised by the loader alone: a program ROM of `units` 16 KiB units, not 1 (93_implementation_defined.md U6). Safe: no machine is built. -/
  | programRomUnits (units : Nat)
  /-- Raised by the loader alone: no graphics ROM, so fewer than 256 tiles (93_implementation_defined.md U7). Safe: no machine is built. -/
  | noGraphicsRom
  deriving DecidableEq, Repr

/-! ### Updates, one per field -/

/-- Write A. -/
def State.setA (s : State) (v : Byte) : State := { s with a := v }
/-- Write X. -/
def State.setX (s : State) (v : Byte) : State := { s with x := v }
/-- Write Y. -/
def State.setY (s : State) (v : Byte) : State := { s with y := v }
/-- Write SP. -/
def State.setSP (s : State) (v : Byte) : State := { s with sp := v }
/-- Write PC. -/
def State.setPC (s : State) (v : Addr) : State := { s with pc := v }
/-- Write P. -/
def State.setP (s : State) (v : Byte) : State := { s with p := v }
/-- Replace work memory. -/
def State.setRam (s : State) (m : Memory) : State := { s with ram := m }
/-- Replace the VideoUnit. -/
def State.setPpu (s : State) (u : Ppu) : State := { s with ppu := u }
/-- Write the halt state. -/
def State.setHalted (s : State) (h : Option FatalCause) : State := { s with halted := h }

/-! ### Launch -/

/-- The launch inputs and parameters of R44 and R4: everything the spec lets the host supply. -/
structure Launch where
  a          : Byte
  x          : Byte
  y          : Byte
  sp         : Byte
  p          : Byte
  pc         : Addr
  ram        : Memory
  vram       : Memory
  readBuffer : Byte
  fb         : FrameBuffer
  params     : Params
  deriving DecidableEq, Repr

/-- The launch state (R270): the inputs as supplied, latch 0, toggle HIGH_NEXT, counters 0, not halted. -/
def State.launch (l : Launch) : State :=
  { a := l.a, x := l.x, y := l.y, sp := l.sp, pc := l.pc, p := l.p
    ram := l.ram
    ppu :=
      { vram := l.vram, latchHi := 0, latchLo := 0, toggle := .highNext
        readBuffer := l.readBuffer, cycle := 0, scanline := 0, fb := l.fb }
    halted := none
    params := l.params }

/-- The launch inputs of the reset state, the convenience values of R44's last paragraph: registers 0, nothing listed in any memory, PC at `RESET_PC`. DESIGN CHOICE, unsafe: log entries 1, 2, 3, 5, 6, 7. -/
def Launch.zeros : Launch :=
  { a := 0, x := 0, y := 0, sp := 0, p := 0, pc := Config.resetPC
    ram := [], vram := [], readBuffer := 0, fb := []
    params := { prg := [], chr := [], palette := ⟨0, 1, 2, 3⟩ } }

/-- The machine right after reset: the launch state of `Launch.zeros`. -/
def State.reset : State := State.launch Launch.zeros

end Sys2Proof.Machine
end

