-- ==== Sys2Proof/Machine/Flags.lean ====
section
/-! DEFINITION. The status flags and the flag computations (spec/10_state.md R26 to R34, spec/40_execution_cycle.md R120). -/

namespace Sys2Proof.Machine

/-- The six named flags of P (R26). -/
inductive Flag where
  | N | V | D | I | Z | C
  deriving DecidableEq, Repr

/-- The bit of P a flag stands at (R26). -/
def Flag.bit : Flag → Nat
  | .N => 7
  | .V => 6
  | .D => 3
  | .I => 2
  | .Z => 1
  | .C => 0

/-- Read one flag of a status byte. -/
def flagOf (p : Byte) (f : Flag) : Bool := p.getLsbD f.bit

/-- Read one flag of the machine. -/
def State.flag (s : State) (f : Flag) : Bool := flagOf s.p f

/-- Write one flag of a status byte, every other bit as it was (R34). -/
def withFlag (p : Byte) (f : Flag) (b : Bool) : Byte :=
  if b then p ||| (1#8 <<< f.bit) else p &&& ~~~(1#8 <<< f.bit)

/-- The status byte after the flag rule on the result `v` (R120): Z, then N. -/
def nzByte (p v : Byte) : Byte := withFlag (withFlag p .Z (v == 0)) .N v.msb

/-- `setNZ(v)` (R120). -/
def setNZ (v : Byte) (s : State) : State := s.setP (nzByte s.p v)

/-- Set the IRQ-disable flag (R30, R210). -/
def setIRQDisable (s : State) : State := s.setP (withFlag s.p .I true)

end Sys2Proof.Machine
end

