-- ==== Sys2Proof/Syntax.lean ====
section
/-! DEFINITION. The syntax: one constructor per row of spec/opcode_table.json (spec/30_encoding.md R97), with the operand bytes the row's format gives it (R91). An operand is held as the byte the instruction stream holds (R93 to R96); what a byte means is the addressing mode's affair (Machine/Operands.lean). -/

namespace Sys2Proof

/-- The 46 instructions of R97. `imm8`, `d8`, `rel8`, `lo8`, `hi8` are the fields of R91. -/
inductive Instr where
  /-- LDA Immediate, R140. -/
  | ldaImm (imm8 : Byte)
  /-- LDA ZeroPage, R141. -/
  | ldaZp (d8 : Byte)
  /-- LDA ZeroPageX, R142. -/
  | ldaZpX (d8 : Byte)
  /-- LDA Absolute, R143. -/
  | ldaAbs (lo8 hi8 : Byte)
  /-- LDA AbsoluteX, R144. -/
  | ldaAbsX (lo8 hi8 : Byte)
  /-- LDX Immediate, R145. -/
  | ldxImm (imm8 : Byte)
  /-- LDX ZeroPage, R146. -/
  | ldxZp (d8 : Byte)
  /-- LDX Absolute, R147. -/
  | ldxAbs (lo8 hi8 : Byte)
  /-- LDY Immediate, R148. -/
  | ldyImm (imm8 : Byte)
  /-- LDY ZeroPage, R149. -/
  | ldyZp (d8 : Byte)
  /-- LDY ZeroPageX, R150. -/
  | ldyZpX (d8 : Byte)
  /-- LDY Absolute, R151. -/
  | ldyAbs (lo8 hi8 : Byte)
  /-- LDY AbsoluteX, R152. -/
  | ldyAbsX (lo8 hi8 : Byte)
  /-- STA ZeroPage, R153. -/
  | staZp (d8 : Byte)
  /-- STA ZeroPageX, R154. -/
  | staZpX (d8 : Byte)
  /-- STA Absolute, R155. -/
  | staAbs (lo8 hi8 : Byte)
  /-- STA AbsoluteX, R156. -/
  | staAbsX (lo8 hi8 : Byte)
  /-- STX ZeroPage, R157. -/
  | stxZp (d8 : Byte)
  /-- STX Absolute, R158. -/
  | stxAbs (lo8 hi8 : Byte)
  /-- STY ZeroPage, R159. -/
  | styZp (d8 : Byte)
  /-- STY ZeroPageX, R160. -/
  | styZpX (d8 : Byte)
  /-- STY Absolute, R161. -/
  | styAbs (lo8 hi8 : Byte)
  /-- JSR Absolute, R170. -/
  | jsr (lo8 hi8 : Byte)
  /-- RTS Implied, R171. -/
  | rts
  /-- BPL Relative, R173. -/
  | bpl (rel8 : Byte)
  /-- BMI Relative, R174. -/
  | bmi (rel8 : Byte)
  /-- BVC Relative, R175. -/
  | bvc (rel8 : Byte)
  /-- BVS Relative, R176. -/
  | bvs (rel8 : Byte)
  /-- BCC Relative, R177. -/
  | bcc (rel8 : Byte)
  /-- BCS Relative, R178. -/
  | bcs (rel8 : Byte)
  /-- BNE Relative, R179. -/
  | bne (rel8 : Byte)
  /-- BEQ Relative, R180. -/
  | beq (rel8 : Byte)
  /-- JMP Absolute, R181. -/
  | jmp (lo8 hi8 : Byte)
  /-- INC ZeroPage, R190. -/
  | incZp (d8 : Byte)
  /-- INC ZeroPageX, R191. -/
  | incZpX (d8 : Byte)
  /-- INC Absolute, R192. -/
  | incAbs (lo8 hi8 : Byte)
  /-- INC AbsoluteX, R193. -/
  | incAbsX (lo8 hi8 : Byte)
  /-- DEC ZeroPage, R194. -/
  | decZp (d8 : Byte)
  /-- DEC ZeroPageX, R195. -/
  | decZpX (d8 : Byte)
  /-- DEC Absolute, R196. -/
  | decAbs (lo8 hi8 : Byte)
  /-- DEC AbsoluteX, R197. -/
  | decAbsX (lo8 hi8 : Byte)
  /-- INX Implied, R198. -/
  | inx
  /-- INY Implied, R199. -/
  | iny
  /-- DEX Implied, R200. -/
  | dex
  /-- DEY Implied, R201. -/
  | dey
  /-- SEI Implied, R210. -/
  | sei
  deriving DecidableEq, Repr

end Sys2Proof
end

