-- ==== Sys2Proof/WellFormed.lean ====
section
/-! DEFINITION. Well-formed instructions. spec/30_encoding.md R100: operand bytes are unconstrained, every value of `imm8`, `d8`, `rel8`, `lo8`, `hi8` is legal; and a field of `Instr` is a byte by its type. So there is no check that could refuse a term, and every arm below says so for one format of R91. -/

namespace Sys2Proof

/-- R100, one arm per format of R91; no wildcard, so that a constructor added later must be judged here. -/
def Instr.wf (i : Instr) : Bool :=
  match i with
  -- format F1
  | .rts | .inx | .iny | .dex | .dey | .sei => true
  -- format F2i
  | .ldaImm _ | .ldxImm _ | .ldyImm _ => true
  -- format F2z
  | .ldaZp _ | .ldaZpX _ | .ldxZp _ | .ldyZp _ | .ldyZpX _ | .staZp _ | .staZpX _ | .stxZp _
  | .styZp _ | .styZpX _ | .incZp _ | .incZpX _ | .decZp _ | .decZpX _ => true
  -- format F2r
  | .bpl _ | .bmi _ | .bvc _ | .bvs _ | .bcc _ | .bcs _ | .bne _ | .beq _ => true
  -- format F3
  | .ldaAbs _ _ | .ldaAbsX _ _ | .ldxAbs _ _ | .ldyAbs _ _ | .ldyAbsX _ _ | .staAbs _ _ | .staAbsX _ _
  | .stxAbs _ _ | .styAbs _ _ | .jsr _ _ | .jmp _ _ | .incAbs _ _ | .incAbsX _ _ | .decAbs _ _
  | .decAbsX _ _ => true

end Sys2Proof
end

