-- ==== Sys2Proof/Decode.lean ====
section
/-! DEFINITION. The InstructionTable, the decoder, the encoder and the assembler text (spec/30_encoding.md). The decoder is a lookup by opcode byte (R98), total on any bytes, and refuses by name (R99). Opcode bytes and cycle costs are the spec's own, which it takes from general knowledge (D2, D3; log entry 11). -/

namespace Sys2Proof

/-- The seven addressing modes (R91, R113 to R119). -/
inductive Mode where
  | implied | immediate | zeroPage | zeroPageX | absolute | absoluteX | relative
  deriving DecidableEq, Repr

/-- The number of operand bytes a mode fetches (R92). -/
def Mode.operandBytes : Mode → Nat
  | .implied => 0
  | .immediate | .zeroPage | .zeroPageX | .relative => 1
  | .absolute | .absoluteX => 2

/-- How a row turns its operand bytes into an instruction: formats F1, F2 (F2i, F2z, F2r) and F3 of R91. -/
inductive Form where
  | f1 (build : Instr)
  | f2 (build : Byte → Instr)
  | f3 (build : Byte → Byte → Instr)

/-- The number of operand bytes of a form (R91). -/
def Form.operandBytes : Form → Nat
  | .f1 _ => 0
  | .f2 _ => 1
  | .f3 _ => 2

/-- An InstructionDescriptor (R9, R97): opcode byte, mnemonic, addressing mode, declared cycle cost, and the instruction its operand bytes form. -/
structure Descriptor where
  op       : Byte
  mnemonic : String
  mode     : Mode
  cost     : Nat
  form     : Form

/-- Loads: the rows R140 to R152 of the table of R97. -/
def loadRows : List Descriptor :=
  [ ⟨0xA9, "LDA", .immediate, 2, .f2 .ldaImm⟩
  , ⟨0xA5, "LDA", .zeroPage, 3, .f2 .ldaZp⟩
  , ⟨0xB5, "LDA", .zeroPageX, 4, .f2 .ldaZpX⟩
  , ⟨0xAD, "LDA", .absolute, 4, .f3 .ldaAbs⟩
  , ⟨0xBD, "LDA", .absoluteX, 4, .f3 .ldaAbsX⟩
  , ⟨0xA2, "LDX", .immediate, 2, .f2 .ldxImm⟩
  , ⟨0xA6, "LDX", .zeroPage, 3, .f2 .ldxZp⟩
  , ⟨0xAE, "LDX", .absolute, 4, .f3 .ldxAbs⟩
  , ⟨0xA0, "LDY", .immediate, 2, .f2 .ldyImm⟩
  , ⟨0xA4, "LDY", .zeroPage, 3, .f2 .ldyZp⟩
  , ⟨0xB4, "LDY", .zeroPageX, 4, .f2 .ldyZpX⟩
  , ⟨0xAC, "LDY", .absolute, 4, .f3 .ldyAbs⟩
  , ⟨0xBC, "LDY", .absoluteX, 4, .f3 .ldyAbsX⟩ ]

/-- Stores: the rows R153 to R161 of the table of R97. -/
def storeRows : List Descriptor :=
  [ ⟨0x85, "STA", .zeroPage, 3, .f2 .staZp⟩
  , ⟨0x95, "STA", .zeroPageX, 4, .f2 .staZpX⟩
  , ⟨0x8D, "STA", .absolute, 4, .f3 .staAbs⟩
  , ⟨0x9D, "STA", .absoluteX, 5, .f3 .staAbsX⟩
  , ⟨0x86, "STX", .zeroPage, 3, .f2 .stxZp⟩
  , ⟨0x8E, "STX", .absolute, 4, .f3 .stxAbs⟩
  , ⟨0x84, "STY", .zeroPage, 3, .f2 .styZp⟩
  , ⟨0x94, "STY", .zeroPageX, 4, .f2 .styZpX⟩
  , ⟨0x8C, "STY", .absolute, 4, .f3 .styAbs⟩ ]

/-- Control transfer: the rows R170 to R181 of the table of R97. -/
def controlRows : List Descriptor :=
  [ ⟨0x20, "JSR", .absolute, 6, .f3 .jsr⟩
  , ⟨0x60, "RTS", .implied, 6, .f1 .rts⟩
  , ⟨0x10, "BPL", .relative, 2, .f2 .bpl⟩
  , ⟨0x30, "BMI", .relative, 2, .f2 .bmi⟩
  , ⟨0x50, "BVC", .relative, 2, .f2 .bvc⟩
  , ⟨0x70, "BVS", .relative, 2, .f2 .bvs⟩
  , ⟨0x90, "BCC", .relative, 2, .f2 .bcc⟩
  , ⟨0xB0, "BCS", .relative, 2, .f2 .bcs⟩
  , ⟨0xD0, "BNE", .relative, 2, .f2 .bne⟩
  , ⟨0xF0, "BEQ", .relative, 2, .f2 .beq⟩
  , ⟨0x4C, "JMP", .absolute, 3, .f3 .jmp⟩ ]

/-- Increments and decrements: the rows R190 to R201 of the table of R97. -/
def incDecRows : List Descriptor :=
  [ ⟨0xE6, "INC", .zeroPage, 5, .f2 .incZp⟩
  , ⟨0xF6, "INC", .zeroPageX, 6, .f2 .incZpX⟩
  , ⟨0xEE, "INC", .absolute, 6, .f3 .incAbs⟩
  , ⟨0xFE, "INC", .absoluteX, 7, .f3 .incAbsX⟩
  , ⟨0xC6, "DEC", .zeroPage, 5, .f2 .decZp⟩
  , ⟨0xD6, "DEC", .zeroPageX, 6, .f2 .decZpX⟩
  , ⟨0xCE, "DEC", .absolute, 6, .f3 .decAbs⟩
  , ⟨0xDE, "DEC", .absoluteX, 7, .f3 .decAbsX⟩
  , ⟨0xE8, "INX", .implied, 2, .f1 .inx⟩
  , ⟨0xC8, "INY", .implied, 2, .f1 .iny⟩
  , ⟨0xCA, "DEX", .implied, 2, .f1 .dex⟩
  , ⟨0x88, "DEY", .implied, 2, .f1 .dey⟩ ]

/-- Flag and system: the rows R210 to R210 of the table of R97. -/
def systemRows : List Descriptor :=
  [ ⟨0x78, "SEI", .implied, 2, .f1 .sei⟩ ]

/-- `TABLE`, the 46 rows of R97. -/
def table : List Descriptor :=
  loadRows ++ storeRows ++ controlRows ++ incDecRows ++ systemRows

/-- The table lookup by the whole opcode byte (R98, R112). -/
def lookup (op : Byte) : Option Descriptor :=
  table.find? fun d => d.op == op

/-- Why bytes decode to no instruction. -/
inductive DecodeError where
  /-- There is not even an opcode byte. -/
  | noBytes
  /-- R99: one of the 210 opcode bytes the table does not have. -/
  | unimplemented (op : Byte)
  /-- The bytes end before the operand bytes of the row do. -/
  | truncated (op : Byte)
  deriving DecidableEq, Repr

/-- Decode one instruction from the front of a list of bytes, the byte at the lowest address first; answer the bytes left over (R90, R92). -/
def decode : List Byte → Except DecodeError (Instr × List Byte)
  | [] => .error .noBytes
  | op :: rest =>
    match lookup op with
    | none => .error (.unimplemented op)
    | some d =>
      match d.form, rest with
      | .f1 i, _ => .ok (i, rest)
      | .f2 build, b :: rest' => .ok (build b, rest')
      | .f3 build, lo :: hi :: rest' => .ok (build lo hi, rest')
      | _, _ => .error (.truncated op)

/-- The bytes of an instruction in ascending address order, from the encodings of the rules named beside each (R90, R91, R97). -/
def encode : Instr → List Byte
  | .ldaImm imm8 => [0xA9, imm8] -- R140
  | .ldaZp d8 => [0xA5, d8] -- R141
  | .ldaZpX d8 => [0xB5, d8] -- R142
  | .ldaAbs lo8 hi8 => [0xAD, lo8, hi8] -- R143
  | .ldaAbsX lo8 hi8 => [0xBD, lo8, hi8] -- R144
  | .ldxImm imm8 => [0xA2, imm8] -- R145
  | .ldxZp d8 => [0xA6, d8] -- R146
  | .ldxAbs lo8 hi8 => [0xAE, lo8, hi8] -- R147
  | .ldyImm imm8 => [0xA0, imm8] -- R148
  | .ldyZp d8 => [0xA4, d8] -- R149
  | .ldyZpX d8 => [0xB4, d8] -- R150
  | .ldyAbs lo8 hi8 => [0xAC, lo8, hi8] -- R151
  | .ldyAbsX lo8 hi8 => [0xBC, lo8, hi8] -- R152
  | .staZp d8 => [0x85, d8] -- R153
  | .staZpX d8 => [0x95, d8] -- R154
  | .staAbs lo8 hi8 => [0x8D, lo8, hi8] -- R155
  | .staAbsX lo8 hi8 => [0x9D, lo8, hi8] -- R156
  | .stxZp d8 => [0x86, d8] -- R157
  | .stxAbs lo8 hi8 => [0x8E, lo8, hi8] -- R158
  | .styZp d8 => [0x84, d8] -- R159
  | .styZpX d8 => [0x94, d8] -- R160
  | .styAbs lo8 hi8 => [0x8C, lo8, hi8] -- R161
  | .jsr lo8 hi8 => [0x20, lo8, hi8] -- R170
  | .rts => [0x60] -- R171
  | .bpl rel8 => [0x10, rel8] -- R173
  | .bmi rel8 => [0x30, rel8] -- R174
  | .bvc rel8 => [0x50, rel8] -- R175
  | .bvs rel8 => [0x70, rel8] -- R176
  | .bcc rel8 => [0x90, rel8] -- R177
  | .bcs rel8 => [0xB0, rel8] -- R178
  | .bne rel8 => [0xD0, rel8] -- R179
  | .beq rel8 => [0xF0, rel8] -- R180
  | .jmp lo8 hi8 => [0x4C, lo8, hi8] -- R181
  | .incZp d8 => [0xE6, d8] -- R190
  | .incZpX d8 => [0xF6, d8] -- R191
  | .incAbs lo8 hi8 => [0xEE, lo8, hi8] -- R192
  | .incAbsX lo8 hi8 => [0xFE, lo8, hi8] -- R193
  | .decZp d8 => [0xC6, d8] -- R194
  | .decZpX d8 => [0xD6, d8] -- R195
  | .decAbs lo8 hi8 => [0xCE, lo8, hi8] -- R196
  | .decAbsX lo8 hi8 => [0xDE, lo8, hi8] -- R197
  | .inx => [0xE8] -- R198
  | .iny => [0xC8] -- R199
  | .dex => [0xCA] -- R200
  | .dey => [0x88] -- R201
  | .sei => [0x78] -- R210

/-- The opcode byte of an instruction: the first byte of its encoding (R90). -/
def Instr.opcode (i : Instr) : Byte := (encode i).headD 0

/-- The instruction's length in bytes (R90). -/
def Instr.length (i : Instr) : Nat := (encode i).length

/-- `cost(op)`, the descriptor's declared cycle cost (R127); 0 for a byte the table does not have, which nothing executes. -/
def costOf (op : Byte) : Nat := (lookup op).elim 0 Descriptor.cost

/-- The declared cycle cost of an instruction: a constant of its opcode byte (R127, R282). -/
def Instr.cost (i : Instr) : Nat := costOf i.opcode

/-- The bytes of an opcode-table word: bit 0 of `w` is the least significant bit of the FIRST byte, bits 15..8 are the second byte; bits from `nbits` up are 0. Three bytes, the longest instruction. -/
def tableBytes (nbits w : Nat) : List Byte :=
  let v := w % 2 ^ nbits
  [BitVec.ofNat 8 v, BitVec.ofNat 8 (v / 256), BitVec.ofNat 8 (v / 65536)]

/-- What the decoder reads from an opcode-table word, none where it refuses. -/
def decodeTableWord (nbits w : Nat) : Option Instr :=
  match decode (tableBytes nbits w) with
  | .ok (i, _) => some i
  | .error _ => none

/-! ### Assembler text (R101, R102): notation only, nothing executes it. -/

/-- One hexadecimal digit, capital letters as in R101. -/
def hexDigit (n : Nat) : Char := ("0123456789ABCDEF".toList).getD n '0'

/-- A byte as two hexadecimal digits. -/
def hexByte (b : Byte) : String := String.ofList [hexDigit (b.toNat / 16), hexDigit (b.toNat % 16)]

/-- A signed displacement in decimal, `-3` or `+2` (R101, R102). -/
def displacementText (r : Byte) : String :=
  if r.toInt < 0 then "-" ++ toString r.toInt.natAbs else "+" ++ toString r.toInt.natAbs

/-- The operand text of a mode from the operand bytes (R101: `#$05`, `$0010`, `-3`; R102: `$10`, `$10,X`, `$0010,X`). -/
def Mode.operandText : Mode → List Byte → String
  | .implied, _ => ""
  | .immediate, [v] => " #$" ++ hexByte v
  | .zeroPage, [d] => " $" ++ hexByte d
  | .zeroPageX, [d] => " $" ++ hexByte d ++ ",X"
  | .absolute, [lo, hi] => " $" ++ hexByte hi ++ hexByte lo
  | .absoluteX, [lo, hi] => " $" ++ hexByte hi ++ hexByte lo ++ ",X"
  | .relative, [r] => " " ++ displacementText r
  | .immediate, _ | .zeroPage, _ | .zeroPageX, _ | .absolute, _ | .absoluteX, _ | .relative, _ => ""

/-- The assembler text of an instruction (R101, R102). -/
def Instr.text (i : Instr) : String :=
  match lookup i.opcode with
  | some d => d.mnemonic ++ d.mode.operandText (encode i).tail
  | none => ""

end Sys2Proof
end

