-- ==== Sys2Proof/Machine/Video.lean ====
section
/-! DEFINITION. The VideoUnit's operations (spec/47_video_unit.md). They act on the VideoUnit alone: R220, it never calls the Bus or the CPU, raises nothing, and is total. -/

namespace Sys2Proof.Machine

/-! ### The address latch -/

/-- `cur()`, the 14-bit VideoUnit address (R225). -/
def Ppu.cur (u : Ppu) : Addr := (u.latchHi ++ u.latchLo : BitVec 16) &&& 0x3FFF

/-- `setcur(a)` (R225). -/
def Ppu.setCur (u : Ppu) (a : Addr) : Ppu :=
  { u with latchHi := a.extractLsb' 8 8, latchLo := a.extractLsb' 0 8 }

/-- The latch advances by one within 14 bits (R230). -/
def Ppu.advance (u : Ppu) : Ppu := u.setCur ((u.cur + 1) &&& 0x3FFF)

/-- `ppu.writeAddress(v)` (R227). -/
def Ppu.writeAddress (v : Byte) (u : Ppu) : Ppu :=
  match u.toggle with
  | .highNext => { u with latchHi := v, toggle := .lowNext }
  | .lowNext =>
    let u' : Ppu := { u with latchLo := v, toggle := .highNext }
    u'.setCur u'.cur

/-- `ppu.setAddress(a)` (R228); it only establishes the launch state (R271). -/
def Ppu.setAddress (a : Addr) (u : Ppu) : Ppu :=
  { u.setCur (a &&& 0x3FFF) with toggle := .highNext }

/-! ### The data port -/

/-- `ppu.read()` (R226): the old buffer, then refill, then advance. -/
def Ppu.read (u : Ppu) : Byte × Ppu :=
  (u.readBuffer, Ppu.advance { u with readBuffer := u.vram.read u.cur.toNat })

/-- `ppu.writeData(v)` (R229): store, then advance; the read buffer keeps its value. -/
def Ppu.writeData (v : Byte) (u : Ppu) : Ppu :=
  Ppu.advance { u with vram := u.vram.write u.cur.toNat v }

/-! ### Tiles and rows -/

/-- `TILES[i][y][x]` (R232): the two bit-planes of the graphics ROM, bit 7 leftmost, high plane above low plane. `CHR` never changes, so the table built at load is this function. -/
def tilePixel (chr : Memory) (i y x : Nat) : BitVec 2 :=
  let lowbit := (chr.read (16 * i + y)).getLsbD (7 - x)
  let highbit := (chr.read (16 * i + 8 + y)).getLsbD (7 - x)
  BitVec.ofBool highbit ++ BitVec.ofBool lowbit

/-- The pixel value of a colour index (R236). -/
def Palette.colour (pal : Palette) (i : BitVec 2) : Pixel :=
  match i.toNat with
  | 0 => pal.c0
  | 1 => pal.c1
  | 2 => pal.c2
  | _ => pal.c3

/-- The value `buildRow(r)` gives the pixel in row `y` of the tile row and column `x` of the picture (R235): the name-table byte of tile column `x / 8` selects the tile. -/
def rowPixel (q : Params) (vram : Memory) (r y x : Nat) : Pixel :=
  let t := vram.read (Config.ntBase + 32 * r + x / 8)
  q.palette.colour (tilePixel q.chr t.toNat y (x % 8))

/-- `buildRow(r)` (R235): the 2048 pixels `fb[8r .. 8r+7][0 .. 255]` and nothing else. The cell `j` of the row is the pixel `(j / 256, j % 256)`. -/
def Ppu.buildRow (q : Params) (r : Nat) (u : Ppu) : Ppu :=
  let row (j : Nat) : Pixel := rowPixel q u.vram r (j / Config.fbWidth) (j % Config.fbWidth)
  { u with fb := Cells.fill FrameBuffer.unlisted u.fb (FrameBuffer.cell (8 * r) 0) (8 * Config.fbWidth) row }

/-! ### The counters -/

/-- Whether the scanline value `n` builds a row (R234). -/
def buildsRow (n : Nat) : Bool := decide (n ≤ Config.visibleLines) && decide (n % 8 = 0)

/-- 341 comes off the accumulator and the scanline counter goes up by one (R234). -/
def Ppu.nextLine (u : Ppu) : Ppu :=
  { u with cycle := u.cycle - Config.cyclesPerLine, scanline := u.scanline + 1 }

/-- The row the scanline counter has come to is built, if it is one that builds a row (R234). -/
def Ppu.rowIfDue (q : Params) (u : Ppu) : Ppu :=
  if buildsRow u.scanline then u.buildRow q (u.scanline / 8 - 1) else u

/-- At the sentinel value the counter goes back to 0 and a frame has completed (R234). -/
def Ppu.frameIfDone (u : Ppu) : Ppu × Bool :=
  if u.scanline = Config.linesPerFrame then ({ u with scanline := 0 }, true) else (u, false)

/-- The body of the loop of `ppu.run` (R234): one scanline passes; the Boolean says whether a frame completed. -/
def Ppu.line (q : Params) (u : Ppu) : Ppu × Bool := (u.nextLine.rowIfDue q).frameIfDone

/-- The loop of `ppu.run` (R234), `while cycle >= 341`, at most `fuel` times round. -/
def Ppu.lines (q : Params) : Nat → Ppu → Ppu × Bool
  | 0, u => (u, false)
  | fuel + 1, u =>
    if Config.cyclesPerLine ≤ u.cycle then
      let r := u.line q
      let r' := Ppu.lines q fuel r.1
      (r'.1, r.2 || r'.2)
    else (u, false)

/-- `cycle <- cycle + n` (R234). -/
def Ppu.addCycles (n : Nat) (u : Ppu) : Ppu := { u with cycle := u.cycle + n }

/-- `ppu.run(n)` (R234). Each time round takes 341 off the accumulator, so `cycle / 341` times is all of the loop (spec decision D20; log entry 20). -/
def Ppu.run (q : Params) (n : Nat) (u : Ppu) : Ppu × Bool :=
  Ppu.lines q ((u.addCycles n).cycle / Config.cyclesPerLine) (u.addCycles n)

end Sys2Proof.Machine
end

