-- ==== Sys2Proof/Machine/Ops.lean ====
section
/-! DEFINITION. The named operations over registers and memory: the Bus (spec/20_memory.md), fatal entry (spec/60_exceptions.md R252), fetch (spec/40_execution_cycle.md R110) and the stack (R121, R122). -/

namespace Sys2Proof.Machine

/-! ### Registers -/

/-- `x[r]` (R7). -/
def State.reg (s : State) : Reg → Byte
  | .A => s.a
  | .X => s.x
  | .Y => s.y

/-- `x[r] <- v` (R7). -/
def State.setReg (s : State) : Reg → Byte → State
  | .A, v => s.setA v
  | .X, v => s.setX v
  | .Y, v => s.setY v

/-! ### Byte order -/

/-- `(hi << 8) | lo` (R6, R63). -/
def word (hi lo : Byte) : Addr := hi ++ lo

/-- Bits 15:8 of an address. -/
def highByte (a : Addr) : Byte := a.extractLsb' 8 8

/-- Bits 7:0 of an address. -/
def lowByte (a : Addr) : Byte := a.extractLsb' 0 8

/-! ### Fatal entry -/

/-- `raise Fatal(cause)` (R252): `halted` takes the cause and the instruction ends. Nothing is saved or pushed, no mode or mask changes, control goes nowhere. There is no return from it (R259). -/
def raiseFatal (c : FatalCause) (s : State) : Flow := .halts (s.setHalted (some c))

/-- The cause's number (R251; the spec's labels). -/
def FatalCause.code : FatalCause → Nat
  | .unimplementedOpcode _ _ => 1
  | .romWrite _ _ => 2

/-- The next thing in an instruction's pseudocode: done when the instruction goes on, skipped once it has ended (R7, R252). -/
def Flow.andThen : Flow → (State → Flow) → Flow
  | .goesOn s, k => k s
  | .halts s, _ => .halts s

/-- The state an instruction leaves, halted or not. -/
def Flow.state : Flow → State
  | .goesOn s => s
  | .halts s => s

/-- The outcome of an instruction: taking a fatal condition is a next state too, with `halted` set (log entry 8). -/
def Flow.outcome (f : Flow) : Host.Outcome State Fault Refusal := .next f.state

/-! ### The Bus -/

/-- The four regions of the Bus (R9, R66). -/
inductive Region where
  | workMemory | videoPorts | expansion | programRom
  deriving DecidableEq, Repr

/-- The region of a Bus address (R52, R59, R66). -/
def regionOf (a : Addr) : Region :=
  if a.toNat < 0x2000 then .workMemory
  else if a.toNat < 0x4000 then .videoPorts
  else if a.toNat < 0x8000 then .expansion
  else .programRom

/-- The work-memory cell an address below 0x2000 names (R53, R60). -/
def ramCell (a : Addr) : Nat := (a &&& 0x07FF).toNat

/-- The program-ROM cell an address from 0x8000 up names (R55). -/
def prgCell (a : Addr) : Nat := ((a - 0x8000) &&& 0x3FFF).toNat

/-- The eight VideoUnit ports (R221). -/
inductive Port where
  | control | mask | unused | oamAddress | oamData | scroll | address | data
  deriving DecidableEq, Repr

/-- The port an address of 0x2000-0x3FFF selects: the offset `a & 0x0007` (R221; spec decision D15). -/
def portOf (a : Addr) : Port :=
  match (a &&& 0x0007).toNat with
  | 0 => .control
  | 1 => .mask
  | 2 => .unused
  | 3 => .oamAddress
  | 4 => .oamData
  | 5 => .scroll
  | 6 => .address
  | _ => .data

/-- `PpuPortRead` (R54): the data port reads through the buffer, every other port reads 0 and changes nothing (R222). -/
def portRead (a : Addr) (s : State) : Byte × State :=
  match portOf a with
  | .data => (s.ppu.read.1, s.setPpu s.ppu.read.2)
  | .control | .mask | .unused | .oamAddress | .oamData | .scroll | .address => (0, s)

/-- `PpuPortWrite` (R61): the address and data ports act, every other port is accepted and inert (R224). -/
def portWrite (a : Addr) (v : Byte) (s : State) : State :=
  match portOf a with
  | .address => s.setPpu (s.ppu.writeAddress v)
  | .data => s.setPpu (s.ppu.writeData v)
  | .control | .mask | .unused | .oamAddress | .oamData | .scroll => s

/-- `MemRead(a, 1)` (R52), with its side effects (R56). It never fails. -/
def memRead (a : Addr) (s : State) : Byte × State :=
  match regionOf a with
  | .workMemory => (s.ram.read (ramCell a), s)
  | .videoPorts => portRead a s
  | .expansion => (0, s)
  | .programRom => (s.params.prg.read (prgCell a), s)

/-- `MemWrite(a, 1, v)` (R59); a write to program ROM is fatal (R62). -/
def memWrite (a : Addr) (v : Byte) (s : State) : Flow :=
  match regionOf a with
  | .workMemory => .goesOn (s.setRam (s.ram.write (ramCell a) v))
  | .videoPorts => .goesOn (portWrite a v s)
  | .expansion => .goesOn s
  | .programRom => raiseFatal (.romWrite a v) s

/-! ### Fetch -/

/-- `fetch()` (R110): read the byte at PC through the Bus, then advance PC. -/
def fetch (s : State) : Byte × State :=
  let r := memRead s.pc s
  (r.1, r.2.setPC (r.2.pc + 1))

/-- Fetch and decode one instruction (R90, R92, R111, R128): the opcode byte, then the operand bytes its row asks for, in ascending address order. Of an opcode byte the table does not have, that one byte is fetched and answered as the error (R99). -/
def fetchInstr (s : State) : Except Byte Instr × State :=
  let f := fetch s
  match lookup f.1 with
  | none => (.error f.1, f.2)
  | some d =>
    match d.form with
    | .f1 i => (.ok i, f.2)
    | .f2 build =>
      let g := fetch f.2
      (.ok (build g.1), g.2)
    | .f3 build =>
      let g := fetch f.2
      let h := fetch g.2
      (.ok (build g.1 h.1), h.2)

/-! ### The stack -/

/-- The Bus address of the stack slot SP names (R24, R121). -/
def stackAddr (s : State) : Addr := Config.stackBase + s.sp.setWidth 16

/-- `push(v)` (R121): store, then increment SP; the stack grows upward (C8). -/
def push (v : Byte) (s : State) : Flow :=
  (memWrite (stackAddr s) v s).andThen fun t => .goesOn (t.setSP (t.sp + 1))

/-- `pop()` (R122): decrement SP, then load. -/
def pop (s : State) : Byte × State :=
  let t := s.setSP (s.sp - 1)
  memRead (stackAddr t) t

end Sys2Proof.Machine
end

