-- ==== Sys2Proof/Machine/Operands.lean ====
section
/-! DEFINITION. The addressing modes (spec/30_encoding.md R93 to R96, spec/40_execution_cycle.md R113 to R119). The operand bytes have been fetched (R128); a mode computes a value, an effective address or a branch target from them and reads no memory. Implied has no operand, and Immediate is the operand byte itself (R113, R114). -/

namespace Sys2Proof.Machine

/-- ZeroPage (R115): the byte, zero-extended. -/
def eaZeroPage (d8 : Byte) : Addr := d8.setWidth 16

/-- ZeroPageX (R116): X is added modulo 256, so the address stays in page zero. -/
def eaZeroPageX (d8 : Byte) (s : State) : Addr := (d8 + s.x).setWidth 16

/-- Absolute (R117): low byte first in the instruction stream. -/
def eaAbsolute (lo8 hi8 : Byte) : Addr := word hi8 lo8

/-- AbsoluteX (R118): X is added to the full 16-bit base, modulo 65536 (C2). -/
def eaAbsoluteX (lo8 hi8 : Byte) (s : State) : Addr := word hi8 lo8 + s.x.setWidth 16

/-- Relative (R119): the displacement, sign-extended, added to the post-fetch PC modulo 65536. -/
def branchTarget (rel8 : Byte) (s : State) : Addr := s.pc + rel8.signExtend 16

end Sys2Proof.Machine
end

