-- ==== Sys2Proof/Machine/Control.lean ====
section
/-! DEFINITION. The control transfer instructions (spec/42_control_transfer.md R170 to R181). No link register, no delay slot, no alignment; no flag is written. -/

namespace Sys2Proof.Machine

/-- What every branch does after its displacement byte is fetched (R172): PC takes the target when the flag has the value asked for, and is left at the next instruction otherwise. -/
def branchWhen (f : Flag) (value : Bool) (rel8 : Byte) (s : State) : State :=
  if s.flag f = value then s.setPC (branchTarget rel8 s) else s

/-- Call (R170): push the post-fetch PC, high byte first, with no adjustment (D6), then PC takes the target. -/
def callTo (target : Addr) (s : State) : Flow :=
  let ret := s.pc
  ((push (highByte ret) s).andThen (push (lowByte ret))).andThen fun t => .goesOn (t.setPC target)

/-- Return (R171): pop low, then high, and PC takes the word with no adjustment (D6). -/
def returnFromCall (s : State) : State :=
  let lo := pop s
  let hi := pop lo.2
  hi.2.setPC (word hi.1 lo.1)

/-- JSR, R170. -/
def execJsr (lo8 hi8 : Byte) (s : State) : Host.Outcome State Fault Refusal :=
  (callTo (eaAbsolute lo8 hi8) s).outcome

/-- RTS, R171. -/
def execRts (s : State) : Host.Outcome State Fault Refusal :=
  .next (returnFromCall s)

/-- BPL, R173: branch when N is clear. -/
def execBpl (rel8 : Byte) (s : State) : Host.Outcome State Fault Refusal :=
  .next (branchWhen .N false rel8 s)

/-- BMI, R174: branch when N is set. -/
def execBmi (rel8 : Byte) (s : State) : Host.Outcome State Fault Refusal :=
  .next (branchWhen .N true rel8 s)

/-- BVC, R175: branch when V is clear. -/
def execBvc (rel8 : Byte) (s : State) : Host.Outcome State Fault Refusal :=
  .next (branchWhen .V false rel8 s)

/-- BVS, R176: branch when V is set. -/
def execBvs (rel8 : Byte) (s : State) : Host.Outcome State Fault Refusal :=
  .next (branchWhen .V true rel8 s)

/-- BCC, R177: branch when C is clear. -/
def execBcc (rel8 : Byte) (s : State) : Host.Outcome State Fault Refusal :=
  .next (branchWhen .C false rel8 s)

/-- BCS, R178: branch when C is set. -/
def execBcs (rel8 : Byte) (s : State) : Host.Outcome State Fault Refusal :=
  .next (branchWhen .C true rel8 s)

/-- BNE, R179: branch when Z is clear. -/
def execBne (rel8 : Byte) (s : State) : Host.Outcome State Fault Refusal :=
  .next (branchWhen .Z false rel8 s)

/-- BEQ, R180: branch when Z is set. -/
def execBeq (rel8 : Byte) (s : State) : Host.Outcome State Fault Refusal :=
  .next (branchWhen .Z true rel8 s)

/-- JMP Absolute, R181. -/
def execJmp (lo8 hi8 : Byte) (s : State) : Host.Outcome State Fault Refusal :=
  .next (s.setPC (eaAbsolute lo8 hi8))

end Sys2Proof.Machine
end

