-- ==== Sys2Proof/Machine/IncDec.lean ====
section
/-! DEFINITION. The increment and decrement instructions (spec/43_inc_dec.md R190 to R201). Carry and Overflow are never written. -/

namespace Sys2Proof.Machine

/-- `(v + 1) mod 256` (R124). -/
def incByte (v : Byte) : Byte := v + 1

/-- `(v - 1) mod 256` (R124). -/
def decByte (v : Byte) : Byte := v - 1

/-- INC and DEC on memory (R190): one read, one write of the new byte, then the flag rule on it; the flags are not updated when the write is fatal (R258). -/
def modifyMemory (f : Byte → Byte) (ea : Addr) (s : State) : Flow :=
  let m := memRead ea s
  (memWrite ea (f m.1) m.2).andThen fun t => .goesOn (setNZ (f m.1) t)

/-- INX, INY, DEX, DEY (R198): the register takes the new byte, then the flag rule on it. -/
def modifyReg (f : Byte → Byte) (r : Reg) (s : State) : State :=
  setNZ (f (s.reg r)) (s.setReg r (f (s.reg r)))

/-- INC ZeroPage, R190. -/
def execIncZp (d8 : Byte) (s : State) : Host.Outcome State Fault Refusal :=
  (modifyMemory incByte (eaZeroPage d8) s).outcome

/-- INC ZeroPageX, R191. -/
def execIncZpX (d8 : Byte) (s : State) : Host.Outcome State Fault Refusal :=
  (modifyMemory incByte (eaZeroPageX d8 s) s).outcome

/-- INC Absolute, R192. -/
def execIncAbs (lo8 hi8 : Byte) (s : State) : Host.Outcome State Fault Refusal :=
  (modifyMemory incByte (eaAbsolute lo8 hi8) s).outcome

/-- INC AbsoluteX, R193. -/
def execIncAbsX (lo8 hi8 : Byte) (s : State) : Host.Outcome State Fault Refusal :=
  (modifyMemory incByte (eaAbsoluteX lo8 hi8 s) s).outcome

/-- DEC ZeroPage, R194. -/
def execDecZp (d8 : Byte) (s : State) : Host.Outcome State Fault Refusal :=
  (modifyMemory decByte (eaZeroPage d8) s).outcome

/-- DEC ZeroPageX, R195. -/
def execDecZpX (d8 : Byte) (s : State) : Host.Outcome State Fault Refusal :=
  (modifyMemory decByte (eaZeroPageX d8 s) s).outcome

/-- DEC Absolute, R196. -/
def execDecAbs (lo8 hi8 : Byte) (s : State) : Host.Outcome State Fault Refusal :=
  (modifyMemory decByte (eaAbsolute lo8 hi8) s).outcome

/-- DEC AbsoluteX, R197. -/
def execDecAbsX (lo8 hi8 : Byte) (s : State) : Host.Outcome State Fault Refusal :=
  (modifyMemory decByte (eaAbsoluteX lo8 hi8 s) s).outcome

/-- INX, R198. -/
def execInx (s : State) : Host.Outcome State Fault Refusal :=
  .next (modifyReg incByte .X s)

/-- INY, R199. -/
def execIny (s : State) : Host.Outcome State Fault Refusal :=
  .next (modifyReg incByte .Y s)

/-- DEX, R200. -/
def execDex (s : State) : Host.Outcome State Fault Refusal :=
  .next (modifyReg decByte .X s)

/-- DEY, R201. -/
def execDey (s : State) : Host.Outcome State Fault Refusal :=
  .next (modifyReg decByte .Y s)

end Sys2Proof.Machine
end

