-- ==== Sys2Proof/Machine/Load.lean ====
section
/-! DEFINITION. The load instructions (spec/41_load_store.md R140 to R152). A meaning takes the state after all bytes of the instruction have been fetched (R128). -/

namespace Sys2Proof.Machine

/-- What every load does with its byte: the register takes it, then the flag rule (R140, R120). -/
def loadValue (r : Reg) (v : Byte) (s : State) : State := setNZ v (s.setReg r v)

/-- A load from memory (R141): one read at the effective address, with that read's side effects (R56), then as an immediate load. -/
def loadFrom (r : Reg) (ea : Addr) (s : State) : State :=
  let m := memRead ea s
  loadValue r m.1 m.2

/-- LDA Immediate, R140. -/
def execLdaImm (imm8 : Byte) (s : State) : Host.Outcome State Fault Refusal :=
  .next (loadValue .A imm8 s)

/-- LDA ZeroPage, R141. -/
def execLdaZp (d8 : Byte) (s : State) : Host.Outcome State Fault Refusal :=
  .next (loadFrom .A (eaZeroPage d8) s)

/-- LDA ZeroPageX, R142. -/
def execLdaZpX (d8 : Byte) (s : State) : Host.Outcome State Fault Refusal :=
  .next (loadFrom .A (eaZeroPageX d8 s) s)

/-- LDA Absolute, R143. -/
def execLdaAbs (lo8 hi8 : Byte) (s : State) : Host.Outcome State Fault Refusal :=
  .next (loadFrom .A (eaAbsolute lo8 hi8) s)

/-- LDA AbsoluteX, R144. -/
def execLdaAbsX (lo8 hi8 : Byte) (s : State) : Host.Outcome State Fault Refusal :=
  .next (loadFrom .A (eaAbsoluteX lo8 hi8 s) s)

/-- LDX Immediate, R145. -/
def execLdxImm (imm8 : Byte) (s : State) : Host.Outcome State Fault Refusal :=
  .next (loadValue .X imm8 s)

/-- LDX ZeroPage, R146. -/
def execLdxZp (d8 : Byte) (s : State) : Host.Outcome State Fault Refusal :=
  .next (loadFrom .X (eaZeroPage d8) s)

/-- LDX Absolute, R147. -/
def execLdxAbs (lo8 hi8 : Byte) (s : State) : Host.Outcome State Fault Refusal :=
  .next (loadFrom .X (eaAbsolute lo8 hi8) s)

/-- LDY Immediate, R148. -/
def execLdyImm (imm8 : Byte) (s : State) : Host.Outcome State Fault Refusal :=
  .next (loadValue .Y imm8 s)

/-- LDY ZeroPage, R149. -/
def execLdyZp (d8 : Byte) (s : State) : Host.Outcome State Fault Refusal :=
  .next (loadFrom .Y (eaZeroPage d8) s)

/-- LDY ZeroPageX, R150. -/
def execLdyZpX (d8 : Byte) (s : State) : Host.Outcome State Fault Refusal :=
  .next (loadFrom .Y (eaZeroPageX d8 s) s)

/-- LDY Absolute, R151. -/
def execLdyAbs (lo8 hi8 : Byte) (s : State) : Host.Outcome State Fault Refusal :=
  .next (loadFrom .Y (eaAbsolute lo8 hi8) s)

/-- LDY AbsoluteX, R152. -/
def execLdyAbsX (lo8 hi8 : Byte) (s : State) : Host.Outcome State Fault Refusal :=
  .next (loadFrom .Y (eaAbsoluteX lo8 hi8 s) s)

end Sys2Proof.Machine
end

