-- ==== Sys2Proof/Machine/Store.lean ====
section
/-! DEFINITION. The store instructions (spec/41_load_store.md R153 to R161): one write, no flag, and the target is never read. -/

namespace Sys2Proof.Machine

/-- A store of a register (R153): one write at the effective address; fatal in program ROM (R62). -/
def storeTo (r : Reg) (ea : Addr) (s : State) : Flow := memWrite ea (s.reg r) s

/-- STA ZeroPage, R153. -/
def execStaZp (d8 : Byte) (s : State) : Host.Outcome State Fault Refusal :=
  (storeTo .A (eaZeroPage d8) s).outcome

/-- STA ZeroPageX, R154. -/
def execStaZpX (d8 : Byte) (s : State) : Host.Outcome State Fault Refusal :=
  (storeTo .A (eaZeroPageX d8 s) s).outcome

/-- STA Absolute, R155. -/
def execStaAbs (lo8 hi8 : Byte) (s : State) : Host.Outcome State Fault Refusal :=
  (storeTo .A (eaAbsolute lo8 hi8) s).outcome

/-- STA AbsoluteX, R156. -/
def execStaAbsX (lo8 hi8 : Byte) (s : State) : Host.Outcome State Fault Refusal :=
  (storeTo .A (eaAbsoluteX lo8 hi8 s) s).outcome

/-- STX ZeroPage, R157. -/
def execStxZp (d8 : Byte) (s : State) : Host.Outcome State Fault Refusal :=
  (storeTo .X (eaZeroPage d8) s).outcome

/-- STX Absolute, R158. -/
def execStxAbs (lo8 hi8 : Byte) (s : State) : Host.Outcome State Fault Refusal :=
  (storeTo .X (eaAbsolute lo8 hi8) s).outcome

/-- STY ZeroPage, R159. -/
def execStyZp (d8 : Byte) (s : State) : Host.Outcome State Fault Refusal :=
  (storeTo .Y (eaZeroPage d8) s).outcome

/-- STY ZeroPageX, R160. -/
def execStyZpX (d8 : Byte) (s : State) : Host.Outcome State Fault Refusal :=
  (storeTo .Y (eaZeroPageX d8 s) s).outcome

/-- STY Absolute, R161. -/
def execStyAbs (lo8 hi8 : Byte) (s : State) : Host.Outcome State Fault Refusal :=
  (storeTo .Y (eaAbsolute lo8 hi8) s).outcome

end Sys2Proof.Machine
end

