-- ==== Sys2Proof/Machine/System.lean ====
section
/-! DEFINITION. The flag and system instruction (spec/44_flag_ops.md R210). The machine has no other (R211): no interrupt return, no break, no wait. -/

namespace Sys2Proof.Machine

/-- SEI, R210: `P.I <- 1`. The machine has no interrupt (R256), so nothing consults the flag. -/
def execSei (s : State) : Host.Outcome State Fault Refusal :=
  .next (setIRQDisable s)

end Sys2Proof.Machine
end

