-- ==== Sys2Proof/Machine/Dispatch.lean ====
section
/-! DEFINITION. One arm per instruction. `exec i s` is the effect of `i` on the state `s` after all of `i`'s bytes have been fetched (spec/40_execution_cycle.md R111, R128; log entry 27). -/

namespace Sys2Proof.Machine

def exec (i : Instr) (s : State) : Host.Outcome State Fault Refusal :=
  match i with
  -- loads
  | .ldaImm imm8 => Sys2Proof.Machine.execLdaImm imm8 s
  | .ldaZp d8 => Sys2Proof.Machine.execLdaZp d8 s
  | .ldaZpX d8 => Sys2Proof.Machine.execLdaZpX d8 s
  | .ldaAbs lo8 hi8 => Sys2Proof.Machine.execLdaAbs lo8 hi8 s
  | .ldaAbsX lo8 hi8 => Sys2Proof.Machine.execLdaAbsX lo8 hi8 s
  | .ldxImm imm8 => Sys2Proof.Machine.execLdxImm imm8 s
  | .ldxZp d8 => Sys2Proof.Machine.execLdxZp d8 s
  | .ldxAbs lo8 hi8 => Sys2Proof.Machine.execLdxAbs lo8 hi8 s
  | .ldyImm imm8 => Sys2Proof.Machine.execLdyImm imm8 s
  | .ldyZp d8 => Sys2Proof.Machine.execLdyZp d8 s
  | .ldyZpX d8 => Sys2Proof.Machine.execLdyZpX d8 s
  | .ldyAbs lo8 hi8 => Sys2Proof.Machine.execLdyAbs lo8 hi8 s
  | .ldyAbsX lo8 hi8 => Sys2Proof.Machine.execLdyAbsX lo8 hi8 s
  -- stores
  | .staZp d8 => Sys2Proof.Machine.execStaZp d8 s
  | .staZpX d8 => Sys2Proof.Machine.execStaZpX d8 s
  | .staAbs lo8 hi8 => Sys2Proof.Machine.execStaAbs lo8 hi8 s
  | .staAbsX lo8 hi8 => Sys2Proof.Machine.execStaAbsX lo8 hi8 s
  | .stxZp d8 => Sys2Proof.Machine.execStxZp d8 s
  | .stxAbs lo8 hi8 => Sys2Proof.Machine.execStxAbs lo8 hi8 s
  | .styZp d8 => Sys2Proof.Machine.execStyZp d8 s
  | .styZpX d8 => Sys2Proof.Machine.execStyZpX d8 s
  | .styAbs lo8 hi8 => Sys2Proof.Machine.execStyAbs lo8 hi8 s
  -- control transfer
  | .jsr lo8 hi8 => Sys2Proof.Machine.execJsr lo8 hi8 s
  | .rts => Sys2Proof.Machine.execRts s
  | .bpl rel8 => Sys2Proof.Machine.execBpl rel8 s
  | .bmi rel8 => Sys2Proof.Machine.execBmi rel8 s
  | .bvc rel8 => Sys2Proof.Machine.execBvc rel8 s
  | .bvs rel8 => Sys2Proof.Machine.execBvs rel8 s
  | .bcc rel8 => Sys2Proof.Machine.execBcc rel8 s
  | .bcs rel8 => Sys2Proof.Machine.execBcs rel8 s
  | .bne rel8 => Sys2Proof.Machine.execBne rel8 s
  | .beq rel8 => Sys2Proof.Machine.execBeq rel8 s
  | .jmp lo8 hi8 => Sys2Proof.Machine.execJmp lo8 hi8 s
  -- increments and decrements
  | .incZp d8 => Sys2Proof.Machine.execIncZp d8 s
  | .incZpX d8 => Sys2Proof.Machine.execIncZpX d8 s
  | .incAbs lo8 hi8 => Sys2Proof.Machine.execIncAbs lo8 hi8 s
  | .incAbsX lo8 hi8 => Sys2Proof.Machine.execIncAbsX lo8 hi8 s
  | .decZp d8 => Sys2Proof.Machine.execDecZp d8 s
  | .decZpX d8 => Sys2Proof.Machine.execDecZpX d8 s
  | .decAbs lo8 hi8 => Sys2Proof.Machine.execDecAbs lo8 hi8 s
  | .decAbsX lo8 hi8 => Sys2Proof.Machine.execDecAbsX lo8 hi8 s
  | .inx => Sys2Proof.Machine.execInx s
  | .iny => Sys2Proof.Machine.execIny s
  | .dex => Sys2Proof.Machine.execDex s
  | .dey => Sys2Proof.Machine.execDey s
  -- flag and system
  | .sei => Sys2Proof.Machine.execSei s

end Sys2Proof.Machine
end

