-- ==== Sys2Proof/Machine/Run.lean ====
section
/-! DEFINITION. Running one instruction and advancing the VideoUnit (spec/40_execution_cycle.md R111, R126). -/

namespace Sys2Proof.Machine

/-- What follows `run()` in `Step()` (R126): the VideoUnit advances by three times the cost, unless the instruction halted the machine (D23). The Boolean is the frame signal the host receives (R237). -/
def advanceVideo (cost : Nat) (s : State) : State × Bool :=
  match s.halted with
  | some _ => (s, false)
  | none =>
    let r := s.ppu.run s.params (Config.ppuRatio * cost)
    (s.setPpu r.1, r.2)

/-- Run a fetched instruction (R111) and advance the VideoUnit (R126). -/
def runInstr (i : Instr) (s : State) : Host.Outcome (State × Bool) Fault Refusal :=
  match exec i s with
  | .next t => .next (advanceVideo i.cost t)
  | .fault r => .fault r
  | .refused r => .refused r

/-- `Step()` (R126) with the frame signal it hands the host. A halted machine has no step (R252). An opcode byte the table does not have is the fatal condition of R253. -/
def systemStep (s : State) : Host.Outcome (State × Bool) Fault Refusal :=
  match s.halted with
  | some c => .fault (.halted c)
  | none =>
    match fetchInstr s with
    | (.ok i, t) => runInstr i t
    | (.error op, t) => .next ((raiseFatal (.unimplementedOpcode op s.pc) t).state, false)

/-- The next state alone; the frame signal goes to the host and is not stored (R41, R237; log entry 9). -/
def stateOnly : Host.Outcome (State × Bool) Fault Refusal → Host.Outcome State Fault Refusal
  | .next r => .next r.1
  | .fault r => .fault r
  | .refused r => .refused r

/-! ### Placing an instruction for the next fetch -/

/-- Whether a Bus address is backed by a memory that a byte can be placed in. -/
def placeable (a : Addr) : Bool :=
  match regionOf a with
  | .workMemory | .programRom => true
  | .videoPorts | .expansion => false

/-- Put a byte where a fetch from `a` finds it: the work-memory or program-ROM cell behind the address. This is the host's load, not a Bus write. -/
def placeByte (a : Addr) (v : Byte) (s : State) : State :=
  match regionOf a with
  | .workMemory => s.setRam (s.ram.write (ramCell a) v)
  | .programRom => { s with params := { s.params with prg := s.params.prg.write (prgCell a) v } }
  | .videoPorts | .expansion => s

/-- Put bytes at ascending addresses. -/
def placeBytes : Addr → List Byte → State → State
  | _, [], s => s
  | a, v :: vs, s => placeBytes (a + 1) vs (placeByte a v s)

/-- The address an instruction of three bytes can be placed at: PC, or the first byte of program ROM when PC or a following byte lies where no memory is (log entry 28). -/
def placeAt (s : State) : Addr :=
  if placeable s.pc && placeable (s.pc + 1) && placeable (s.pc + 2) then s.pc else 0x8000

/-- The state whose next step fetches the bytes: placed, PC there, not halted. -/
def readyToRun (bytes : List Byte) (s : State) : State :=
  ((placeBytes (placeAt s) bytes s).setPC (placeAt s)).setHalted none

end Sys2Proof.Machine
end

