-- ==== Sys2Proof/Machine/Step.lean ====
section
/-! DEFINITION. One system step (spec/40_execution_cycle.md R126), and the placing of an instruction for the next step. -/

namespace Sys2Proof.Machine

/-- `Step()` of R126. -/
def step (s : State) : Host.Outcome State Fault Refusal := stateOnly (systemStep s)

/-- `s` with an opcode-table word placed where `step` fetches its next instruction (log entry 28). -/
def State.withFetchWord (s : State) (nbits w : Nat) : State := readyToRun (tableBytes nbits w) s

end Sys2Proof.Machine
end

