-- ==== Sys2Proof/Machine/Loader.lean ====
section
/-! DEFINITION. The boot image (spec/70_reset_and_hazards.md R273, R274, spec/60_exceptions.md R265). The image loader is outside the core (spec/00_scope.md R3); only the layout R273 records is stated here, and the images the spec puts outside itself are refused by name (93_implementation_defined.md U6, U7; log entry 26). Which images count as malformed is the model's choice (log entry 31). `step` never calls it. -/

namespace Sys2Proof.Machine

/-- Bytes of the image before the first program block (R273). -/
def headerSize : Nat := 16

/-- Consecutive bytes as a memory, the first at address `at0`. -/
def memoryOfBytes : Nat → List Byte → Memory
  | _, [] => []
  | at0, v :: vs => if v = Memory.unlisted then memoryOfBytes (at0 + 1) vs else (at0, v) :: memoryOfBytes (at0 + 1) vs

/-- `PRG` and `CHR` from a boot image (R273): byte 4 counts 16 KiB program blocks, byte 5 counts 8 KiB graphics blocks, header, program blocks, graphics blocks. DESIGN CHOICE (unsafe, log entry 31): R265 fails malformed images and no rule says which they are; bytes after the last graphics block and the 14 header bytes R273 does not name are accepted and ignored, whatever they hold. -/
def ofImage (image : List Byte) : Except Refusal (Memory × Memory) :=
  let prgUnits := (image.getD 4 0).toNat
  let chrUnits := (image.getD 5 0).toNat
  let chrBytes := chrUnits * Config.chrUnit
  if image.length < headerSize then .error .truncatedImage
  else if prgUnits ≠ 1 then .error (.programRomUnits prgUnits)
  else if chrUnits = 0 then .error .noGraphicsRom
  else if image.length < headerSize + Config.prgSize + chrBytes then .error .truncatedImage
  else
    let body := image.drop headerSize
    .ok (memoryOfBytes 0 (body.take Config.prgSize), memoryOfBytes 0 ((body.drop Config.prgSize).take chrBytes))

/-- The machine launched from a boot image (R274): the image's two blocks with the launch inputs of `l`. -/
def launchImage (image : List Byte) (l : Launch) : Except Refusal State :=
  match ofImage image with
  | .ok (prg, chr) => .ok (State.launch { l with params := { l.params with prg := prg, chr := chr } })
  | .error r => .error r

end Sys2Proof.Machine
end

