-- ==== Sys2Proof/Safety.lean ====
section
/-! DEFINITION. What counts as a running and a sound state, and the terms the obligations are written in. The terms of `Stated` say the spec's rules again in plain arithmetic on naturals, with none of the machine's own operations but reading and writing a memory cell, so that a statement compares the machine with the rule and not with itself. -/

namespace Sys2Proof.Machine

/-- The machine may take a step (spec/60_exceptions.md R252). -/
def Running (s : State) : Prop := s.halted = none

/-- What a recorded fatal cause says (R251, R253): the opcode byte has no row and PC is one past it, or the address is in program ROM. -/
def HaltRecord (s : State) : Prop :=
  match s.halted with
  | none => True
  | some (.unimplementedOpcode op addr) => lookup op = none ∧ s.pc = addr + 1
  | some (.romWrite addr _) => 0x8000 ≤ addr.toNat

/-- The invariant of the machine: every memory in canonical form and within its size (R35, R36, R37, R41), the counters in range (R40), a completed latch within 14 bits (R225), the halt record true (R251). -/
structure Inv (s : State) : Prop where
  ram      : Memory.wf Config.ramSize s.ram = true
  vram     : Memory.wf Config.vramSize s.ppu.vram = true
  prg      : Memory.wf Config.prgSize s.params.prg = true
  chr      : Memory.wf Config.chrMaxSize s.params.chr = true
  fb       : FrameBuffer.wf s.ppu.fb = true
  cycle    : s.ppu.cycle < 341
  scanline : s.ppu.scanline < 262
  latch    : s.ppu.toggle = .highNext → s.ppu.latchHi.toNat ≤ 0x3F
  halt     : HaltRecord s

/-- Launch inputs that are storable: each memory in canonical form and within its size. -/
structure Launch.Ok (l : Launch) : Prop where
  ram  : Memory.wf Config.ramSize l.ram = true
  vram : Memory.wf Config.vramSize l.vram = true
  prg  : Memory.wf Config.prgSize l.params.prg = true
  chr  : Memory.wf Config.chrMaxSize l.params.chr = true
  fb   : FrameBuffer.wf l.fb = true

/-- The effective address of an instruction that writes memory at an operand address, by the addressing mode its meaning uses; none for every other instruction. -/
def storeEa (i : Instr) (s : State) : Option Addr :=
  match i with
  | .staZp d8 | .stxZp d8 | .styZp d8 | .incZp d8 | .decZp d8 => some (eaZeroPage d8)
  | .staZpX d8 | .styZpX d8 | .incZpX d8 | .decZpX d8 => some (eaZeroPageX d8 s)
  | .staAbs lo8 hi8 | .stxAbs lo8 hi8 | .styAbs lo8 hi8 | .incAbs lo8 hi8 | .decAbs lo8 hi8 => some (eaAbsolute lo8 hi8)
  | .staAbsX lo8 hi8 | .incAbsX lo8 hi8 | .decAbsX lo8 hi8 => some (eaAbsoluteX lo8 hi8 s)
  | .ldaImm _ | .ldaZp _ | .ldaZpX _ | .ldaAbs _ _ | .ldaAbsX _ _ | .ldxImm _ | .ldxZp _ | .ldxAbs _ _
  | .ldyImm _ | .ldyZp _ | .ldyZpX _ | .ldyAbs _ _ | .ldyAbsX _ _ | .jsr _ _ | .rts
  | .bpl _ | .bmi _ | .bvc _ | .bvs _ | .bcc _ | .bcs _ | .bne _ | .beq _ | .jmp _ _
  | .inx | .iny | .dex | .dey | .sei => none

/-- The effective address of an instruction that reads memory at an operand address: the loads, INC and DEC. -/
def loadEa (i : Instr) (s : State) : Option Addr :=
  match i with
  | .ldaZp d8 | .ldxZp d8 | .ldyZp d8 | .incZp d8 | .decZp d8 => some (eaZeroPage d8)
  | .ldaZpX d8 | .ldyZpX d8 | .incZpX d8 | .decZpX d8 => some (eaZeroPageX d8 s)
  | .ldaAbs lo8 hi8 | .ldxAbs lo8 hi8 | .ldyAbs lo8 hi8 | .incAbs lo8 hi8 | .decAbs lo8 hi8 => some (eaAbsolute lo8 hi8)
  | .ldaAbsX lo8 hi8 | .ldyAbsX lo8 hi8 | .incAbsX lo8 hi8 | .decAbsX lo8 hi8 => some (eaAbsoluteX lo8 hi8 s)
  | .staZp _ | .staZpX _ | .staAbs _ _ | .staAbsX _ _ | .stxZp _ | .stxAbs _ _ | .styZp _ | .styZpX _ | .styAbs _ _
  | .ldaImm _ | .ldxImm _ | .ldyImm _ | .jsr _ _ | .rts
  | .bpl _ | .bmi _ | .bvc _ | .bvs _ | .bcc _ | .bcs _ | .bne _ | .beq _ | .jmp _ _
  | .inx | .iny | .dex | .dey | .sei => none

/-- The state without what only the picture depends on: the counters, the frame buffer, the graphics ROM and the palette (R282). -/
def State.withoutPicture (s : State) : State :=
  { s with
    ppu := { s.ppu with cycle := 0, scanline := 0, fb := [] }
    params := { s.params with chr := [], palette := ⟨0, 0, 0, 0⟩ } }

end Sys2Proof.Machine

namespace Sys2Proof.Stated

open Sys2Proof.Machine

/-- The 14-bit VideoUnit address, `((latch_hi << 8) | latch_lo) & 0x3FFF` (R225). -/
def cur (u : Ppu) : Nat := (256 * u.latchHi.toNat + u.latchLo.toNat) % 0x4000

/-- The VideoUnit with its latch holding the address `n` below 0x4000 (R225 `setcur`). -/
def atAddress (u : Ppu) (n : Nat) : Ppu :=
  { u with latchHi := BitVec.ofNat 8 (n / 256), latchLo := BitVec.ofNat 8 (n % 256) }

/-- The address that follows `n` (R230). -/
def succ14 (n : Nat) : Nat := (n + 1) % 0x4000

/-- The VideoUnit after one data-port read (R226). -/
def afterPortRead (u : Ppu) : Ppu :=
  atAddress { u with readBuffer := u.vram.read (cur u) } (succ14 (cur u))

/-- The VideoUnit after one data-port write (R229). -/
def afterPortWrite (u : Ppu) (v : Byte) : Ppu :=
  atAddress { u with vram := u.vram.write (cur u) v } (succ14 (cur u))

/-- The VideoUnit after one address-port write (R227): the high half first, then the low half with the completed address masked to 14 bits. -/
def afterAddressWrite (u : Ppu) (v : Byte) : Ppu :=
  if u.toggle = .highNext then { u with latchHi := v, toggle := .lowNext }
  else atAddress { u with toggle := .highNext } ((256 * u.latchHi.toNat + v.toNat) % 0x4000)

/-- The addresses of the data port (R54, R56): offset 7 of the VideoUnit window. -/
abbrev IsDataPort (a : Addr) : Prop := 0x2000 ≤ a.toNat ∧ a.toNat < 0x4000 ∧ a.toNat % 8 = 7

/-- The addresses of the address port (R61): offset 6 of the VideoUnit window. -/
abbrev IsAddressPort (a : Addr) : Prop := 0x2000 ≤ a.toNat ∧ a.toNat < 0x4000 ∧ a.toNat % 8 = 6

/-- The byte a read of the Bus address `a` returns (R52 to R55, R58). -/
def busByte (s : State) (a : Addr) : Byte :=
  if a.toNat < 0x2000 then s.ram.read (a.toNat % 0x800)
  else if a.toNat < 0x4000 then (if a.toNat % 8 = 7 then s.ppu.readBuffer else 0)
  else if a.toNat < 0x8000 then 0
  else s.params.prg.read ((a.toNat - 0x8000) % 0x4000)

/-- The state after a read of the Bus address `a`: the data port's side effects and no other (R56). -/
def afterRead (s : State) (a : Addr) : State :=
  if IsDataPort a then { s with ppu := afterPortRead s.ppu } else s

/-- The state after a write of `v` to a Bus address below 0x8000 (R59 to R61): a work-memory cell, the address port, the data port, or nothing. -/
def afterWrite (s : State) (a : Addr) (v : Byte) : State :=
  if a.toNat < 0x2000 then { s with ram := s.ram.write (a.toNat % 0x800) v }
  else if IsAddressPort a then { s with ppu := afterAddressWrite s.ppu v }
  else if IsDataPort a then { s with ppu := afterPortWrite s.ppu v }
  else s

/-- The halted state a fatal condition leaves (R252). -/
def haltedBy (s : State) (c : FatalCause) : State := { s with halted := some c }

/-- `q` is the status byte `p` after the flag rule on the result `v` (R120): bit 1 says `v = 0`, bit 7 is bit 7 of `v`, every other bit is as it was. -/
def NZ (p v q : Byte) : Prop :=
  (q.getLsbD 1 = true ↔ v = 0) ∧ q.getLsbD 7 = v.getLsbD 7 ∧
    ∀ k, k < 8 → k ≠ 1 → k ≠ 7 → q.getLsbD k = p.getLsbD k

/-- Effective addresses of the four memory modes (R115 to R118). -/
def zeroPage (d8 : Byte) : Addr := BitVec.ofNat 16 d8.toNat
/-- R116. -/
def zeroPageX (d8 : Byte) (s : State) : Addr := BitVec.ofNat 16 ((d8.toNat + s.x.toNat) % 256)
/-- R117. -/
def absolute (lo8 hi8 : Byte) : Addr := BitVec.ofNat 16 (256 * hi8.toNat + lo8.toNat)
/-- R118. -/
def absoluteX (lo8 hi8 : Byte) (s : State) : Addr := BitVec.ofNat 16 ((256 * hi8.toNat + lo8.toNat + s.x.toNat) % 65536)

/-- The branch target from the post-fetch PC, on integers modulo 65536 (R119). -/
def target (pc : Addr) (rel8 : Byte) : Addr := BitVec.ofInt 16 (((pc.toNat : Int) + rel8.toInt) % 65536)

/-- Successive `fetch()` calls from `s` return these bytes and leave `t` (R110): each reads the byte at PC through the Bus, with its side effects, and then advances PC modulo 65536. -/
def Fetches : List Byte → State → State → Prop
  | [], s, t => t = s
  | b :: bs, s, t =>
    busByte s s.pc = b ∧ Fetches bs { afterRead s s.pc with pc := BitVec.ofNat 16 ((s.pc.toNat + 1) % 65536) } t

/-- The encoding side of an instruction's rule: its bytes, what they decode to, what fetching them yields, and its declared cost (R90, R97, R110, R127). Opcode bytes and costs are the spec's own values (D2, D3; log entry 11). -/
def Row (i : Instr) (bytes : List Byte) (cost : Nat) : Prop :=
  encode i = bytes ∧ decode bytes = .ok (i, []) ∧ i.cost = cost ∧
    ∀ s t, Fetches bytes s t → fetchInstr s = (.ok i, t)

/-- A load's rule after its fetches: `i` answers the state in which `write` has put the byte read at `ea` and the flags follow it, with the read's side effects and nothing else (R140 to R152). -/
def LoadsFrom (i : Instr) (ea : State → Addr) (write : State → Byte → State) : Prop :=
  ∀ s, ∃ q, NZ s.p (busByte s (ea s)) q ∧
    exec i s = .next { write (afterRead s (ea s)) (busByte s (ea s)) with p := q }

/-- A store's rule after its fetches: below 0x8000 `i` answers the state with the byte written and nothing else changed; from 0x8000 up it halts with RomWrite and nothing else changes (R153 to R161, R62). The halted state is a next state: DEDUCED, log entry 8. -/
def StoresTo (i : Instr) (ea : State → Addr) (value : State → Byte) : Prop :=
  ∀ s, ((ea s).toNat < 0x8000 → exec i s = .next (afterWrite s (ea s) (value s))) ∧
    (0x8000 ≤ (ea s).toNat → exec i s = .next (haltedBy s (.romWrite (ea s) (value s))))

/-- INC's and DEC's rule after their fetches: one read at `ea`, the new byte `f` of it written there, the flags from the new byte; in program ROM the write halts after the read and before the flags (R190 to R197). The halted state is a next state: DEDUCED, log entry 8. -/
def Modifies (i : Instr) (ea : State → Addr) (f : Nat → Nat) : Prop :=
  ∀ s, let w : Byte := BitVec.ofNat 8 (f (busByte s (ea s)).toNat)
    ((ea s).toNat < 0x8000 → ∃ q, NZ s.p w q ∧
      exec i s = .next { afterWrite (afterRead s (ea s)) (ea s) w with p := q }) ∧
    (0x8000 ≤ (ea s).toNat → exec i s = .next (haltedBy s (.romWrite (ea s) w)))

/-- A branch's rule after its fetches: PC takes the target when bit `bit` of P is `value`, and keeps the post-fetch value otherwise; nothing else changes (R172). -/
def BranchesOn (i : Byte → Instr) (bit : Nat) (value : Bool) : Prop :=
  ∀ rel8 s, exec (i rel8) s =
    .next (if s.p.getLsbD bit = value then { s with pc := target s.pc rel8 } else s)

/-- `(v + 1) mod 256` and `(v - 1) mod 256` on naturals (R124). -/
def inc256 (v : Nat) : Nat := (v + 1) % 256
/-- R124. -/
def dec256 (v : Nat) : Nat := (v + 255) % 256

/-- The state a step leaves when its instruction left `t`: the VideoUnit advances by three times the cost unless the instruction halted (R126). -/
def advanced (cost : Nat) (t : State) : State :=
  if t.halted = none then { t with ppu := (t.ppu.run t.params (3 * cost)).1 } else t

/-- Whether that step hands the host a completed frame (R126). -/
def frameCompleted (cost : Nat) (t : State) : Bool :=
  if t.halted = none then (t.ppu.run t.params (3 * cost)).2 else false

/-- One scanline passes in `ppu.run` (R234): the body of its loop, after the test `cycle >= 341`. -/
def oneLine (q : Params) (u : Ppu) : Ppu × Bool :=
  let u1 : Ppu := { u with cycle := u.cycle - 341, scanline := u.scanline + 1 }
  let u2 := if u1.scanline ≤ 240 ∧ u1.scanline % 8 = 0 then u1.buildRow q (u1.scanline / 8 - 1) else u1
  if u2.scanline = 262 then ({ u2 with scanline := 0 }, true) else (u2, false)

/-- Bit `k` of a byte as 0 or 1. -/
def bit (v : Byte) (k : Nat) : Nat := v.toNat / 2 ^ k % 2

/-- The tile table entry of R232. -/
def tile (chr : Memory) (i y x : Nat) : Nat :=
  2 * bit (chr.read (16 * i + 8 + y)) (7 - x) + bit (chr.read (16 * i + y)) (7 - x)

/-- The pixel value of a colour index 0 to 3 (R236). -/
def colour (pal : Palette) (i : Nat) : Pixel :=
  if i = 0 then pal.c0 else if i = 1 then pal.c1 else if i = 2 then pal.c2 else pal.c3

/-- The VideoUnit's place in the frame, in cycles from the start of scanline 0 (R234). -/
def place (u : Ppu) : Nat := 341 * u.scanline + u.cycle

end Sys2Proof.Stated
end

