-- ==== Sys2Proof/Certificates/Slice0/Obligations.lean ====
section
/-! DEFINITION. The statements for the provers. The terms of `Sys2Proof.Stated` are in Safety.lean. A statement about a meaning is about the state after the instruction's bytes have been fetched; `Stated.Row` says what fetching them does, and `StepRunsDecodedInstruction` puts the two together. -/

open Sys2Proof Sys2Proof.Machine

/-! ### Encoding and the step -/

/-- The source's sample program (R101) and one word of every family decode as the table of R97 says. The opcode bytes are the spec's own choice, from general knowledge (D2; log entry 11). -/
def Obligations.SampleWordsDecode : Prop :=
  decode [0x78, 0xA9, 0x05] = .ok (.sei, [0xA9, 0x05]) ∧
  decode [0xA9, 0x05] = .ok (.ldaImm 0x05, []) ∧
  decode [0x8D, 0x10, 0x00] = .ok (.staAbs 0x10 0x00, []) ∧
  decode [0xA2, 0x00] = .ok (.ldxImm 0x00, []) ∧
  decode [0xE8] = .ok (.inx, []) ∧
  decode [0xD0, 0xFD] = .ok (.bne 0xFD, []) ∧
  decode [0x20, 0x09, 0x80] = .ok (.jsr 0x09 0x80, []) ∧
  decode [0x60] = .ok (.rts, []) ∧
  decode [0xFE, 0xF0, 0x02] = .ok (.incAbsX 0xF0 0x02, []) ∧
  decode [0xB4, 0xFF] = .ok (.ldyZpX 0xFF, []) ∧
  decode [0xEA] = .error (.unimplemented 0xEA) ∧
  decode [0x4C, 0x00] = .error (.truncated 0x4C)

/-- Bytes decode to an instruction exactly when they are its encoding followed by the bytes left over: no bit of an encoding is dropped and none is read two ways (R90, R97, R98). The table is the spec's own (D1, D2; log entries 11, 12). -/
def Obligations.DecodeInvertsEncode : Prop :=
  ∀ (bytes : List Byte) (i : Instr) (rest : List Byte),
    decode bytes = .ok (i, rest) ↔ bytes = encode i ++ rest

/-- The decoder refuses by name exactly the opcode bytes that begin no instruction, and there are 210 of them (R99, R100). Which 46 bytes have a row is the spec's own choice (D1, D2; log entries 11, 12). -/
def Obligations.DecoderRefusesTheOther210 : Prop :=
  (∀ (op : Byte) (rest : List Byte),
    decode (op :: rest) = .error (.unimplemented op) ↔ ∀ i : Instr, (encode i).head? ≠ some op) ∧
  (List.range 256).countP (fun n => (lookup (BitVec.ofNat 8 n)).isNone) = 210

/-- When the bytes the fetches return decode to an instruction, a step runs that instruction on the post-fetch state and then advances the VideoUnit by three times its cost, unless it halted; the host is handed the frame signal (R111, R126). That a halting instruction does not advance the VideoUnit is the spec's decision D23 (log entry 22); that running is split at the post-fetch state is the model's (log entry 27). That a halting instruction answers a next state is the model's reading of R252 (DEDUCED, log entry 8). -/
def Obligations.StepRunsDecodedInstruction : Prop :=
  ∀ (bytes : List Byte) (i : Instr) (s t : State),
    Running s → decode bytes = .ok (i, []) → Stated.Fetches bytes s t →
      ∃ u, exec i t = .next u ∧
        systemStep s = .next (Stated.advanced i.cost u, Stated.frameCompleted i.cost u) ∧
        step s = .next (Stated.advanced i.cost u)

/-- R253: an opcode byte with no row halts the machine with PC one past it, the fetch's side effects done, nothing else changed, the VideoUnit not advanced. That the fatal step answers the halted state as a next state is the model's reading of R252 and U8 (DEDUCED, log entry 8); that the VideoUnit is not advanced is the spec's decision D23 (R258; log entry 22); which bytes have a row is its decisions D1 and D2 (log entries 11, 12). -/
def Obligations.UnimplementedOpcodeHalts : Prop :=
  ∀ s : State, Running s → (∀ i : Instr, (encode i).head? ≠ some (Stated.busByte s s.pc)) →
    step s = .next
      { Stated.afterRead s s.pc with
        pc := BitVec.ofNat 16 ((s.pc.toNat + 1) % 65536)
        halted := some (.unimplementedOpcode (Stated.busByte s s.pc) s.pc) }

/-- A halted machine has no step, and a machine that is not halted always has one: nothing else stops it and nothing is refused (R250, R252, R255). That a step FROM a halted state is a fault is the model's reading of "undefined on a halted state" (R252, U10; log entry 8). -/
def Obligations.OnlyAHaltStopsTheMachine : Prop :=
  (∀ (s : State) (c : FatalCause), s.halted = some c → step s = .fault (.halted c)) ∧
  (∀ s : State, Running s → ∃ t, step s = .next t)

/-- Every instruction answers a next state from every state; it raises RomWrite only at an address in program ROM, and only the eight absolute forms that write memory can (R251). The recorded cause is the spec's own label (D12); the window up to 0xFFFF is its decision D13 (log entry 15). That the fatal store answers the halted state as a next state is the model's reading of R252 and U9 (DEDUCED, log entry 8); a halted state is no completion (R252). -/
def Obligations.RomWriteOnlyByAbsoluteStores : Prop :=
  ∀ (i : Instr) (s : State), ∃ t, exec i s = .next t ∧
    (t.halted = s.halted ∨
      ∃ a v, t.halted = some (.romWrite a v) ∧ 0x8000 ≤ a.toNat ∧ storeEa i s = some a ∧
        ((∃ lo hi, i = .staAbs lo hi) ∨ (∃ lo hi, i = .staAbsX lo hi) ∨ (∃ lo hi, i = .stxAbs lo hi) ∨
         (∃ lo hi, i = .styAbs lo hi) ∨ (∃ lo hi, i = .incAbs lo hi) ∨ (∃ lo hi, i = .incAbsX lo hi) ∨
         (∃ lo hi, i = .decAbs lo hi) ∨ (∃ lo hi, i = .decAbsX lo hi)))

/-! ### Loads -/

/-- LDA in its five forms (R140 to R144). The opcode bytes and costs in `Stated.Row` are the spec's own values (R97, D2, D3; log entry 11). AbsoluteX adds X to the whole base, as 90_conflicts.md C2 resolves it (D7; log entry 14). -/
def Obligations.LdaLoadsAccumulator : Prop :=
  (∀ v, Stated.Row (.ldaImm v) [0xA9, v] 2 ∧
    ∀ s : State, ∃ q, Stated.NZ s.p v q ∧ exec (.ldaImm v) s = .next { s with a := v, p := q }) ∧
  (∀ d, Stated.Row (.ldaZp d) [0xA5, d] 3 ∧
    Stated.LoadsFrom (.ldaZp d) (fun _ => Stated.zeroPage d) fun s v => { s with a := v }) ∧
  (∀ d, Stated.Row (.ldaZpX d) [0xB5, d] 4 ∧
    Stated.LoadsFrom (.ldaZpX d) (Stated.zeroPageX d) fun s v => { s with a := v }) ∧
  (∀ lo hi, Stated.Row (.ldaAbs lo hi) [0xAD, lo, hi] 4 ∧
    Stated.LoadsFrom (.ldaAbs lo hi) (fun _ => Stated.absolute lo hi) fun s v => { s with a := v }) ∧
  (∀ lo hi, Stated.Row (.ldaAbsX lo hi) [0xBD, lo, hi] 4 ∧
    Stated.LoadsFrom (.ldaAbsX lo hi) (Stated.absoluteX lo hi) fun s v => { s with a := v })

/-- LDX in its three forms (R145 to R147). The opcode bytes and costs in `Stated.Row` are the spec's own values (R97, D2, D3; log entry 11). -/
def Obligations.LdxLoadsIndexX : Prop :=
  (∀ v, Stated.Row (.ldxImm v) [0xA2, v] 2 ∧
    ∀ s : State, ∃ q, Stated.NZ s.p v q ∧ exec (.ldxImm v) s = .next { s with x := v, p := q }) ∧
  (∀ d, Stated.Row (.ldxZp d) [0xA6, d] 3 ∧
    Stated.LoadsFrom (.ldxZp d) (fun _ => Stated.zeroPage d) fun s v => { s with x := v }) ∧
  (∀ lo hi, Stated.Row (.ldxAbs lo hi) [0xAE, lo, hi] 4 ∧
    Stated.LoadsFrom (.ldxAbs lo hi) (fun _ => Stated.absolute lo hi) fun s v => { s with x := v })

/-- LDY in its five forms (R148 to R152). The opcode bytes and costs in `Stated.Row` are the spec's own values (R97, D2, D3; log entry 11). AbsoluteX adds X to the whole base, as 90_conflicts.md C2 resolves it (D7; log entry 14). -/
def Obligations.LdyLoadsIndexY : Prop :=
  (∀ v, Stated.Row (.ldyImm v) [0xA0, v] 2 ∧
    ∀ s : State, ∃ q, Stated.NZ s.p v q ∧ exec (.ldyImm v) s = .next { s with y := v, p := q }) ∧
  (∀ d, Stated.Row (.ldyZp d) [0xA4, d] 3 ∧
    Stated.LoadsFrom (.ldyZp d) (fun _ => Stated.zeroPage d) fun s v => { s with y := v }) ∧
  (∀ d, Stated.Row (.ldyZpX d) [0xB4, d] 4 ∧
    Stated.LoadsFrom (.ldyZpX d) (Stated.zeroPageX d) fun s v => { s with y := v }) ∧
  (∀ lo hi, Stated.Row (.ldyAbs lo hi) [0xAC, lo, hi] 4 ∧
    Stated.LoadsFrom (.ldyAbs lo hi) (fun _ => Stated.absolute lo hi) fun s v => { s with y := v }) ∧
  (∀ lo hi, Stated.Row (.ldyAbsX lo hi) [0xBC, lo, hi] 4 ∧
    Stated.LoadsFrom (.ldyAbsX lo hi) (Stated.absoluteX lo hi) fun s v => { s with y := v })

/-! ### Stores -/

/-- STA in its four forms (R153 to R156). A page-zero address is below 0x0100, so those two forms always complete. The opcode bytes and costs in `Stated.Row` are the spec's own values (R97, D2, D3; log entry 11). AbsoluteX adds X to the whole base, as 90_conflicts.md C2 resolves it (D7; log entry 14). That the fatal store answers the halted state as a next state is the model's reading of R252 and U9 (DEDUCED, log entry 8); a halted state is no completion (R252). The inert ports 2, 3, 4 and the fatal window up to 0xFFFF are the spec's decisions D16 and D13 (log entries 15, 16). -/
def Obligations.StaStoresAccumulator : Prop :=
  (∀ d, Stated.Row (.staZp d) [0x85, d] 3 ∧ ∀ s : State,
    exec (.staZp d) s = .next { s with ram := s.ram.write d.toNat s.a }) ∧
  (∀ d, Stated.Row (.staZpX d) [0x95, d] 4 ∧ ∀ s : State,
    exec (.staZpX d) s = .next { s with ram := s.ram.write ((d.toNat + s.x.toNat) % 256) s.a }) ∧
  (∀ lo hi, Stated.Row (.staAbs lo hi) [0x8D, lo, hi] 4 ∧
    Stated.StoresTo (.staAbs lo hi) (fun _ => Stated.absolute lo hi) State.a) ∧
  (∀ lo hi, Stated.Row (.staAbsX lo hi) [0x9D, lo, hi] 5 ∧
    Stated.StoresTo (.staAbsX lo hi) (Stated.absoluteX lo hi) State.a)

/-- STX in its two forms (R157, R158). STX is admitted by the spec's own symmetry (D1; log entry 12). The opcode bytes and costs in `Stated.Row` are the spec's own values (R97, D2, D3; log entry 11). That the fatal store answers the halted state as a next state is the model's reading of R252 and U9 (DEDUCED, log entry 8); a halted state is no completion (R252). -/
def Obligations.StxStoresIndexX : Prop :=
  (∀ d, Stated.Row (.stxZp d) [0x86, d] 3 ∧ ∀ s : State,
    exec (.stxZp d) s = .next { s with ram := s.ram.write d.toNat s.x }) ∧
  (∀ lo hi, Stated.Row (.stxAbs lo hi) [0x8E, lo, hi] 4 ∧
    Stated.StoresTo (.stxAbs lo hi) (fun _ => Stated.absolute lo hi) State.x)

/-- STY in its three forms (R159 to R161). STY is admitted by the spec's own symmetry (D1; log entry 12). The opcode bytes and costs in `Stated.Row` are the spec's own values (R97, D2, D3; log entry 11). That the fatal store answers the halted state as a next state is the model's reading of R252 and U9 (DEDUCED, log entry 8); a halted state is no completion (R252). -/
def Obligations.StyStoresIndexY : Prop :=
  (∀ d, Stated.Row (.styZp d) [0x84, d] 3 ∧ ∀ s : State,
    exec (.styZp d) s = .next { s with ram := s.ram.write d.toNat s.y }) ∧
  (∀ d, Stated.Row (.styZpX d) [0x94, d] 4 ∧ ∀ s : State,
    exec (.styZpX d) s = .next { s with ram := s.ram.write ((d.toNat + s.x.toNat) % 256) s.y }) ∧
  (∀ lo hi, Stated.Row (.styAbs lo hi) [0x8C, lo, hi] 4 ∧
    Stated.StoresTo (.styAbs lo hi) (fun _ => Stated.absolute lo hi) State.y)

/-! ### Control transfer -/

/-- JSR (R170): the post-fetch PC is pushed high byte first on a stack that grows upward from 0x0100, unadjusted, and PC takes the absolute target; no flag and no register but SP and PC changes. The stack page 0x0100 is the spec's decision D4 (log entry 10), the missing adjustment its decision D6 (log entry 13). The opcode bytes and costs in `Stated.Row` are the spec's own values (R97, D2, D3; log entry 11). -/
def Obligations.JsrPushesReturnAddress : Prop :=
  ∀ lo hi, Stated.Row (.jsr lo hi) [0x20, lo, hi] 6 ∧
    ∀ s : State, exec (.jsr lo hi) s = .next
      { s with
        ram := (s.ram.write (0x100 + s.sp.toNat) (BitVec.ofNat 8 (s.pc.toNat / 256))).write
          (0x100 + (s.sp.toNat + 1) % 256) (BitVec.ofNat 8 (s.pc.toNat % 256))
        sp := BitVec.ofNat 8 ((s.sp.toNat + 2) % 256)
        pc := Stated.absolute lo hi }

/-- RTS (R171): the byte below SP is the low half and the one below it the high half of the new PC, unadjusted; SP goes down by two and memory is unchanged. The stack page is the spec's decision D4 (log entry 10), the missing adjustment its decision D6 (log entry 13). The opcode bytes and costs in `Stated.Row` are the spec's own values (R97, D2, D3; log entry 11). -/
def Obligations.RtsPopsReturnAddress : Prop :=
  Stated.Row .rts [0x60] 6 ∧
    ∀ s : State, exec .rts s = .next
      { s with
        sp := BitVec.ofNat 8 ((s.sp.toNat + 254) % 256)
        pc := BitVec.ofNat 16
          (256 * (s.ram.read (0x100 + (s.sp.toNat + 254) % 256)).toNat
            + (s.ram.read (0x100 + (s.sp.toNat + 255) % 256)).toNat) }

/-- A call followed by a return restores PC to the address after the call's operand bytes and SP to its value before the call, whatever the subroutine left elsewhere, if it left SP and the two stack bytes as the call did (R171, the source's property). The spec marks the proviso as its own inference (R171). -/
def Obligations.CallThenReturnRestores : Prop :=
  ∀ (lo hi : Byte) (s t u : State), exec (.jsr lo hi) s = .next t →
    u.sp = t.sp →
    u.ram.read (0x100 + s.sp.toNat) = t.ram.read (0x100 + s.sp.toNat) →
    u.ram.read (0x100 + (s.sp.toNat + 1) % 256) = t.ram.read (0x100 + (s.sp.toNat + 1) % 256) →
    exec .rts u = .next { u with pc := s.pc, sp := s.sp }

/-- The eight branches (R172 to R180): each tests one bit of P, and changes nothing but PC. The opcode bytes and costs in `Stated.Row` are the spec's own values (R97, D2, D3; log entry 11). -/
def Obligations.BranchesFollowTheirFlag : Prop :=
  (∀ r, Stated.Row (.bpl r) [0x10, r] 2) ∧ Stated.BranchesOn .bpl 7 false ∧
  (∀ r, Stated.Row (.bmi r) [0x30, r] 2) ∧ Stated.BranchesOn .bmi 7 true ∧
  (∀ r, Stated.Row (.bvc r) [0x50, r] 2) ∧ Stated.BranchesOn .bvc 6 false ∧
  (∀ r, Stated.Row (.bvs r) [0x70, r] 2) ∧ Stated.BranchesOn .bvs 6 true ∧
  (∀ r, Stated.Row (.bcc r) [0x90, r] 2) ∧ Stated.BranchesOn .bcc 0 false ∧
  (∀ r, Stated.Row (.bcs r) [0xB0, r] 2) ∧ Stated.BranchesOn .bcs 0 true ∧
  (∀ r, Stated.Row (.bne r) [0xD0, r] 2) ∧ Stated.BranchesOn .bne 1 false ∧
  (∀ r, Stated.Row (.beq r) [0xF0, r] 2) ∧ Stated.BranchesOn .beq 1 true

/-- A whole step of BNE (R172's quoted property): not taken, PC is exactly 2 past the branch's address; taken, it is that plus the signed displacement, modulo 65536. -/
def Obligations.BranchStepMovesPC : Prop :=
  ∀ (r : Byte) (s t u : State), Running s → Stated.Fetches [0xD0, r] s t → step s = .next u →
    u.pc = if s.p.getLsbD 1 = true then BitVec.ofNat 16 ((s.pc.toNat + 2) % 65536)
      else BitVec.ofInt 16 (((s.pc.toNat : Int) + 2 + r.toInt) % 65536)

/-- JMP (R181): PC takes the absolute target and nothing else changes. The opcode bytes and costs in `Stated.Row` are the spec's own values (R97, D2, D3; log entry 11). -/
def Obligations.JmpSetsPC : Prop :=
  ∀ lo hi, Stated.Row (.jmp lo hi) [0x4C, lo, hi] 3 ∧
    ∀ s : State, exec (.jmp lo hi) s = .next { s with pc := Stated.absolute lo hi }

/-- A JMP to its own address, the spec's end marker (R181, R286), steps to a state that differs only in the VideoUnit's counters and the rows it builds. -/
def Obligations.JumpToSelfIdles : Prop :=
  ∀ (lo hi : Byte) (s t : State), Running s → Stated.Fetches [0x4C, lo, hi] s t → t.ppu = s.ppu →
    s.pc = Stated.absolute lo hi →
      ∃ n m f, step s = .next { s with ppu := { s.ppu with cycle := n, scanline := m, fb := f } }

/-! ### Increments, decrements, SEI -/

/-- INC in its four forms (R190 to R193). The opcode bytes and costs in `Stated.Row` are the spec's own values (R97, D2, D3; log entry 11). AbsoluteX adds X to the whole base, as 90_conflicts.md C2 resolves it (D7; log entry 14). That the fatal store answers the halted state as a next state is the model's reading of R252 and U9 (DEDUCED, log entry 8); a halted state is no completion (R252). -/
def Obligations.IncIncrementsMemory : Prop :=
  (∀ d, Stated.Row (.incZp d) [0xE6, d] 5 ∧
    Stated.Modifies (.incZp d) (fun _ => Stated.zeroPage d) Stated.inc256) ∧
  (∀ d, Stated.Row (.incZpX d) [0xF6, d] 6 ∧
    Stated.Modifies (.incZpX d) (Stated.zeroPageX d) Stated.inc256) ∧
  (∀ lo hi, Stated.Row (.incAbs lo hi) [0xEE, lo, hi] 6 ∧
    Stated.Modifies (.incAbs lo hi) (fun _ => Stated.absolute lo hi) Stated.inc256) ∧
  (∀ lo hi, Stated.Row (.incAbsX lo hi) [0xFE, lo, hi] 7 ∧
    Stated.Modifies (.incAbsX lo hi) (Stated.absoluteX lo hi) Stated.inc256)

/-- DEC in its four forms (R194 to R197). The opcode bytes and costs in `Stated.Row` are the spec's own values (R97, D2, D3; log entry 11). AbsoluteX adds X to the whole base, as 90_conflicts.md C2 resolves it (D7; log entry 14). That the fatal store answers the halted state as a next state is the model's reading of R252 and U9 (DEDUCED, log entry 8); a halted state is no completion (R252). -/
def Obligations.DecDecrementsMemory : Prop :=
  (∀ d, Stated.Row (.decZp d) [0xC6, d] 5 ∧
    Stated.Modifies (.decZp d) (fun _ => Stated.zeroPage d) Stated.dec256) ∧
  (∀ d, Stated.Row (.decZpX d) [0xD6, d] 6 ∧
    Stated.Modifies (.decZpX d) (Stated.zeroPageX d) Stated.dec256) ∧
  (∀ lo hi, Stated.Row (.decAbs lo hi) [0xCE, lo, hi] 6 ∧
    Stated.Modifies (.decAbs lo hi) (fun _ => Stated.absolute lo hi) Stated.dec256) ∧
  (∀ lo hi, Stated.Row (.decAbsX lo hi) [0xDE, lo, hi] 7 ∧
    Stated.Modifies (.decAbsX lo hi) (Stated.absoluteX lo hi) Stated.dec256)

/-- INX, INY, DEX, DEY (R198 to R201): the register steps modulo 256, N and Z follow it, nothing else changes. The opcode bytes and costs in `Stated.Row` are the spec's own values (R97, D2, D3; log entry 11). -/
def Obligations.IndexRegistersStep : Prop :=
  (Stated.Row .inx [0xE8] 2 ∧ ∀ s : State, ∃ q, Stated.NZ s.p (BitVec.ofNat 8 (Stated.inc256 s.x.toNat)) q ∧
    exec .inx s = .next { s with x := BitVec.ofNat 8 (Stated.inc256 s.x.toNat), p := q }) ∧
  (Stated.Row .iny [0xC8] 2 ∧ ∀ s : State, ∃ q, Stated.NZ s.p (BitVec.ofNat 8 (Stated.inc256 s.y.toNat)) q ∧
    exec .iny s = .next { s with y := BitVec.ofNat 8 (Stated.inc256 s.y.toNat), p := q }) ∧
  (Stated.Row .dex [0xCA] 2 ∧ ∀ s : State, ∃ q, Stated.NZ s.p (BitVec.ofNat 8 (Stated.dec256 s.x.toNat)) q ∧
    exec .dex s = .next { s with x := BitVec.ofNat 8 (Stated.dec256 s.x.toNat), p := q }) ∧
  (Stated.Row .dey [0x88] 2 ∧ ∀ s : State, ∃ q, Stated.NZ s.p (BitVec.ofNat 8 (Stated.dec256 s.y.toNat)) q ∧
    exec .dey s = .next { s with y := BitVec.ofNat 8 (Stated.dec256 s.y.toNat), p := q })

/-- INC on the data port (R279 a): the stale buffer is read, incremented and written at the advanced address, and the latch advances twice; the memory byte at the first address is only copied to the buffer. The spec marks this as its own inference (R279; D24). -/
def Obligations.IncOnDataPortUsesStaleBuffer : Prop :=
  ∀ (lo hi : Byte) (s : State), Stated.IsDataPort (Stated.absolute lo hi) →
    ∃ t, exec (.incAbs lo hi) s = .next t ∧
      t.ppu.readBuffer = s.ppu.vram.read (Stated.cur s.ppu) ∧
      t.ppu.vram = s.ppu.vram.write ((Stated.cur s.ppu + 1) % 0x4000)
        (BitVec.ofNat 8 ((s.ppu.readBuffer.toNat + 1) % 256)) ∧
      Stated.cur t.ppu = (Stated.cur s.ppu + 2) % 0x4000 ∧ t.ppu.toggle = s.ppu.toggle

/-- SEI (R210): bit 2 of P becomes 1, every other bit of P and everything else is as it was. What SEI means is the spec's own choice (D1, D8; log entry 24). The opcode bytes and costs in `Stated.Row` are the spec's own values (R97, D2, D3; log entry 11). -/
def Obligations.SeiSetsIRQDisable : Prop :=
  Stated.Row .sei [0x78] 2 ∧ ∀ s : State, ∃ q : Byte,
    q.getLsbD 2 = true ∧ (∀ k, k < 8 → k ≠ 2 → q.getLsbD k = s.p.getLsbD k) ∧
    exec .sei s = .next { s with p := q }

/-! ### Frames and whole-machine rules -/

/-- The frame of the loads and of INX, INY, DEX, DEY, which store nothing: SP, PC, the flags but N and Z, every byte of work memory, VideoUnit memory and program ROM, the counters, the picture and the halt state are unchanged; the registers but the destination too; and the address latch, its toggle and the read buffer change only in a load from the data port. -/
def Obligations.LoadAndIndexStepFrame : Prop :=
  ∀ (i : Instr) (s t : State), exec i s = .next t →
    ((∃ v, i = .ldaImm v) ∨ (∃ d, i = .ldaZp d) ∨ (∃ d, i = .ldaZpX d) ∨ (∃ lo hi, i = .ldaAbs lo hi) ∨
      (∃ lo hi, i = .ldaAbsX lo hi) ∨ (∃ v, i = .ldxImm v) ∨ (∃ d, i = .ldxZp d) ∨ (∃ lo hi, i = .ldxAbs lo hi) ∨
      (∃ v, i = .ldyImm v) ∨ (∃ d, i = .ldyZp d) ∨ (∃ d, i = .ldyZpX d) ∨ (∃ lo hi, i = .ldyAbs lo hi) ∨
      (∃ lo hi, i = .ldyAbsX lo hi) ∨ i = .inx ∨ i = .iny ∨ i = .dex ∨ i = .dey) →
    t.sp = s.sp ∧ t.pc = s.pc ∧ t.halted = s.halted ∧ t.params = s.params ∧
    (∀ k, k < 8 → k ≠ 1 → k ≠ 7 → t.p.getLsbD k = s.p.getLsbD k) ∧
    (∀ k, t.ram.read k = s.ram.read k) ∧ (∀ k, t.ppu.vram.read k = s.ppu.vram.read k) ∧
    t.ppu.cycle = s.ppu.cycle ∧ t.ppu.scanline = s.ppu.scanline ∧ t.ppu.fb = s.ppu.fb ∧
    t.ppu.toggle = s.ppu.toggle ∧
    ((∀ a, loadEa i s = some a → ¬ Stated.IsDataPort a) → t.ppu = s.ppu) ∧
    ((∃ v, i = .ldaImm v) ∨ (∃ d, i = .ldaZp d) ∨ (∃ d, i = .ldaZpX d) ∨ (∃ lo hi, i = .ldaAbs lo hi) ∨
      (∃ lo hi, i = .ldaAbsX lo hi) → t.x = s.x ∧ t.y = s.y) ∧
    ((∃ v, i = .ldxImm v) ∨ (∃ d, i = .ldxZp d) ∨ (∃ lo hi, i = .ldxAbs lo hi) ∨ i = .inx ∨ i = .dex →
      t.a = s.a ∧ t.y = s.y) ∧
    ((∃ v, i = .ldyImm v) ∨ (∃ d, i = .ldyZp d) ∨ (∃ d, i = .ldyZpX d) ∨ (∃ lo hi, i = .ldyAbs lo hi) ∨
      (∃ lo hi, i = .ldyAbsX lo hi) ∨ i = .iny ∨ i = .dey → t.a = s.a ∧ t.x = s.x)

/-- The frame of the stores, INC and DEC, with `ea` the address the meaning computes: all registers, SP, PC and the flags but N and Z are unchanged (a store leaves all of P); every Bus address outside the VideoUnit window reads as before, but for the work-memory aliases of `ea`; and every VideoUnit memory byte is unchanged but for the one a data-port write stores to, at the latch address for a store and at the next one for INC and DEC, whose read advanced it. The next state of a fatal store is the halted one (DEDUCED, log entry 8). -/
def Obligations.StoreFrame : Prop :=
  ∀ (i : Instr) (s t : State) (ea : Addr), storeEa i s = some ea → exec i s = .next t →
    t.a = s.a ∧ t.x = s.x ∧ t.y = s.y ∧ t.sp = s.sp ∧ t.pc = s.pc ∧ t.params = s.params ∧
    (∀ k, k < 8 → k ≠ 1 → k ≠ 7 → t.p.getLsbD k = s.p.getLsbD k) ∧
    (loadEa i s = none → t.p = s.p) ∧
    (∀ a : Addr, ¬ (0x2000 ≤ a.toNat ∧ a.toNat < 0x4000) →
      ¬ (ea.toNat < 0x2000 ∧ a.toNat < 0x2000 ∧ a.toNat % 0x800 = ea.toNat % 0x800) →
      (memRead a t).1 = (memRead a s).1) ∧
    (∀ k : Nat, (Stated.IsDataPort ea → loadEa i s = none → k ≠ Stated.cur s.ppu) →
      (Stated.IsDataPort ea → loadEa i s = some ea → k ≠ Stated.succ14 (Stated.cur s.ppu)) →
      t.ppu.vram.read k = s.ppu.vram.read k) ∧
    (¬ Stated.IsDataPort ea → t.ppu.readBuffer = s.ppu.readBuffer) ∧
    (¬ Stated.IsDataPort ea → ¬ Stated.IsAddressPort ea → t.ppu = s.ppu) ∧
    t.ppu.cycle = s.ppu.cycle ∧ t.ppu.scanline = s.ppu.scanline ∧ t.ppu.fb = s.ppu.fb

/-- The frame of control transfer and SEI: A, X, Y, the VideoUnit, the parameters and the halt state are unchanged; P is unchanged but by SEI, PC by SEI, SP by all but JSR and RTS; and every Bus address reads as before, but for JSR's two stack slots and their mirrors. The stack page is the spec's decision D4 (log entry 10). -/
def Obligations.ControlFrame : Prop :=
  ∀ (i : Instr) (s t : State), exec i s = .next t →
    ((∃ lo hi, i = .jsr lo hi) ∨ i = .rts ∨ (∃ r, i = .bpl r) ∨ (∃ r, i = .bmi r) ∨ (∃ r, i = .bvc r) ∨
      (∃ r, i = .bvs r) ∨ (∃ r, i = .bcc r) ∨ (∃ r, i = .bcs r) ∨ (∃ r, i = .bne r) ∨ (∃ r, i = .beq r) ∨
      (∃ lo hi, i = .jmp lo hi) ∨ i = .sei) →
    t.a = s.a ∧ t.x = s.x ∧ t.y = s.y ∧ t.ppu = s.ppu ∧ t.params = s.params ∧ t.halted = s.halted ∧
    (i ≠ .sei → t.p = s.p) ∧ (i = .sei → t.pc = s.pc) ∧
    ((∀ lo hi, i ≠ .jsr lo hi) → i ≠ .rts → t.sp = s.sp) ∧
    (∀ a : Addr, ((∃ lo hi, i = .jsr lo hi) → a.toNat < 0x2000 →
        a.toNat % 0x800 ≠ (stackAddr s).toNat ∧
        a.toNat % 0x800 ≠ (stackAddr { s with sp := s.sp + 1 }).toNat) →
      (memRead a t).1 = (memRead a s).1)

/-- No step writes V, D, C or bits 5 and 4 of P, and no step clears I: they keep their launch values for the whole run (R28, R29, R30, R32, R33). That bits 5 and 4 are stored is the spec's decision D10, that I and D have no effect its decision D11 (log entries 24, 25). -/
def Obligations.NoStepWritesTheOtherFlags : Prop :=
  ∀ s t : State, step s = .next t →
    t.p.getLsbD 6 = s.p.getLsbD 6 ∧ t.p.getLsbD 5 = s.p.getLsbD 5 ∧ t.p.getLsbD 4 = s.p.getLsbD 4 ∧
    t.p.getLsbD 3 = s.p.getLsbD 3 ∧ t.p.getLsbD 0 = s.p.getLsbD 0 ∧
    (s.p.getLsbD 2 = true → t.p.getLsbD 2 = true)

/-- Which instructions write which registers (R21 to R24): whatever else is so, A changes only by LDA, Y only by LDY, INY and DEY, X only by LDX, INX and DEX, and SP only by JSR and RTS. -/
def Obligations.RegistersHaveTheirWriters : Prop :=
  ∀ (i : Instr) (s t : State), exec i s = .next t →
    (t.a ≠ s.a → (∃ v, i = .ldaImm v) ∨ (∃ d, i = .ldaZp d) ∨ (∃ d, i = .ldaZpX d) ∨
      (∃ lo hi, i = .ldaAbs lo hi) ∨ (∃ lo hi, i = .ldaAbsX lo hi)) ∧
    (t.x ≠ s.x → (∃ v, i = .ldxImm v) ∨ (∃ d, i = .ldxZp d) ∨ (∃ lo hi, i = .ldxAbs lo hi) ∨ i = .inx ∨ i = .dex) ∧
    (t.y ≠ s.y → (∃ v, i = .ldyImm v) ∨ (∃ d, i = .ldyZp d) ∨ (∃ d, i = .ldyZpX d) ∨
      (∃ lo hi, i = .ldyAbs lo hi) ∨ (∃ lo hi, i = .ldyAbsX lo hi) ∨ i = .iny ∨ i = .dey) ∧
    (t.sp ≠ s.sp → (∃ lo hi, i = .jsr lo hi) ∨ i = .rts)

/-- No step changes the launch parameters: program ROM, graphics ROM and palette (R36, R62, R236, R239). That the model holds them in State is its own choice (log entry 7). -/
def Obligations.NoStepChangesTheParameters : Prop :=
  ∀ s t : State, step s = .next t → t.params = s.params

/-- The machine's invariant is kept by every step from every state that meets it. The canonical form of the memories is the model's own (log entries 3, 5, 7). That a fatal step answers a next state is the model's reading of R252 (DEDUCED, log entry 8). -/
def Obligations.StepKeepsInvariant : Prop :=
  ∀ s t : State, Inv s → step s = .next t → Inv t

/-- The launch state meets the invariant for every storable choice of launch inputs, and so does the reset state. The reset state's values are the model's choice (log entries 1 to 7). -/
def Obligations.LaunchMeetsInvariant : Prop :=
  (∀ l : Launch, l.Ok → Inv (State.launch l)) ∧ Inv State.reset

/-- The launch state (R270, R271): the VideoUnit is as `ppu.setAddress(0)` leaves it, the counters are 0, nothing is halted, execution starts where the host says, and every launch input stands as supplied. The zero latch and counters are the spec's decisions D17 and D20 (log entry 4). -/
def Obligations.LaunchState : Prop :=
  ∀ l : Launch,
    (State.launch l).ppu.toggle = .highNext ∧ (State.launch l).ppu.latchHi = 0 ∧
    (State.launch l).ppu.latchLo = 0 ∧ (State.launch l).ppu.cycle = 0 ∧ (State.launch l).ppu.scanline = 0 ∧
    (State.launch l).halted = none ∧ (State.launch l).pc = l.pc ∧
    (State.launch l).a = l.a ∧ (State.launch l).x = l.x ∧ (State.launch l).y = l.y ∧
    (State.launch l).sp = l.sp ∧ (State.launch l).p = l.p ∧ (State.launch l).ram = l.ram ∧
    (State.launch l).ppu.vram = l.vram ∧ (State.launch l).ppu.readBuffer = l.readBuffer ∧
    (State.launch l).ppu.fb = l.fb ∧ (State.launch l).params = l.params ∧
    ∀ u : Ppu, (u.setAddress 0).latchHi = 0 ∧ (u.setAddress 0).latchLo = 0 ∧ (u.setAddress 0).toggle = .highNext

/-- Nothing the CPU sees depends on the counters, the picture, the graphics ROM or the palette: two states that agree on all else step alike on all else (R238, R261, R282 for the counters; R235, R236, R239 for the picture, the palette and the graphics ROM). That the graphics ROM is not mapped into VideoUnit memory is the spec's decision D18 (log entry 18); that it and the palette stand in State, so that two states can differ in them, is the model's choice (log entry 7). -/
def Obligations.PictureNeverReachesTheCpu : Prop :=
  ∀ s s' : State, s.withoutPicture = s'.withoutPicture →
    (∀ t, step s = .next t → ∃ t', step s' = .next t' ∧ t.withoutPicture = t'.withoutPicture) ∧
    (∀ c, step s = .fault c → step s' = .fault c)

/-! ### The Bus -/

/-- A Bus read (R52 to R56): the byte of its region through that region's mirroring, and the data port's side effects and no other. The aliases of the data port, the ROM window up to 0xFFFF and one read path for fetches are the spec's decisions D15, D13 and D24 (log entries 15, 23). -/
def Obligations.BusRead : Prop :=
  ∀ (a : Addr) (s : State),
    memRead a s = (Stated.busByte s a, Stated.afterRead s a) ∧
    (¬ Stated.IsDataPort a → (memRead a s).2 = s) ∧
    (0x8000 ≤ a.toNat → (memRead (a ^^^ 0x4000) s).1 = (memRead a s).1)

/-- A Bus write (R59 to R62): work memory, the two acting ports, nothing, or the fatal RomWrite with program ROM unchanged. The inert ports 2, 3, 4 and the fatal window up to 0xFFFF are the spec's decisions D16 and D13 (log entries 15, 16). -/
def Obligations.BusWrite : Prop :=
  ∀ (a : Addr) (v : Byte) (s : State),
    memWrite a v s = if a.toNat < 0x8000 then .goesOn (Stated.afterWrite s a v)
      else .halts (Stated.haltedBy s (.romWrite a v))

/-- R57: a byte written to work memory through any alias is read back through every alias, and by a fetch too (R71). The spec marks R57's form as its own inference from R53 and R60. -/
def Obligations.MirrorsReadBackTheWrite : Prop :=
  ∀ (a b : Addr) (v : Byte) (s : State), a.toNat < 0x2000 → b.toNat < 0x2000 →
    b.toNat % 0x800 = a.toNat % 0x800 →
    ∃ t, memWrite a v s = .goesOn t ∧ (memRead b t).1 = v ∧ (fetch { t with pc := b }).1 = v

/-- R121, R122: push stores at the slot SP names and then steps SP up; pop steps SP down and then loads; both modulo 256, inside the page. The page 0x0100 and the upward growth are the spec's decisions D4 and D5 (log entry 10). -/
def Obligations.PushAndPop : Prop :=
  (∀ (v : Byte) (s : State), push v s = .goesOn
    { s with ram := s.ram.write (0x100 + s.sp.toNat) v, sp := BitVec.ofNat 8 ((s.sp.toNat + 1) % 256) }) ∧
  (∀ s : State, pop s =
    (s.ram.read (0x100 + (s.sp.toNat + 255) % 256), { s with sp := BitVec.ofNat 8 ((s.sp.toNat + 255) % 256) }))

/-- R123: a push and then a pop returns the pushed byte and restores SP. The spec marks it as its own inference. -/
def Obligations.PopUndoesPush : Prop :=
  ∀ (v : Byte) (s : State), ∃ t, push v s = .goesOn t ∧ (pop t).1 = v ∧ (pop t).2.sp = s.sp ∧
    (pop t).2.ram = t.ram

/-- R120: the flag rule writes Z and N from the result and no other bit, and never leaves both set. -/
def Obligations.FlagRule : Prop :=
  ∀ (v : Byte) (s : State), Stated.NZ s.p v (setNZ v s).p ∧ setNZ v s = { s with p := (setNZ v s).p } ∧
    ¬ ((setNZ v s).p.getLsbD 1 = true ∧ (setNZ v s).p.getLsbD 7 = true)

/-! ### The VideoUnit -/

/-- R227: the address port takes the high half and then the low half; the completed address is masked to 14 bits and a third write starts a new pair. -/
def Obligations.AddressPortPairs : Prop :=
  ∀ (u : Ppu) (hi lo next : Byte), u.toggle = .highNext →
    (u.writeAddress hi).latchLo = u.latchLo ∧ (u.writeAddress hi).latchHi = hi ∧
    (u.writeAddress hi).toggle = .lowNext ∧
    Stated.cur ((u.writeAddress hi).writeAddress lo) = (256 * hi.toNat + lo.toNat) % 0x4000 ∧
    ((u.writeAddress hi).writeAddress lo).latchHi.toNat = hi.toNat % 0x40 ∧
    ((u.writeAddress hi).writeAddress lo).latchLo = lo ∧
    ((u.writeAddress hi).writeAddress lo).toggle = .highNext ∧
    ((u.writeAddress hi).writeAddress lo).writeAddress next =
      { u with latchHi := next, latchLo := lo, toggle := .lowNext }

/-- R226, R230: a data-port read returns the old buffer, refills it from the latch address and advances the latch by one within 14 bits; the toggle and the memory are unchanged. -/
def Obligations.DataPortReadIsBuffered : Prop :=
  ∀ u : Ppu, u.read.1 = u.readBuffer ∧
    u.read.2.readBuffer = u.vram.read (Stated.cur u) ∧
    Stated.cur u.read.2 = (Stated.cur u + 1) % 0x4000 ∧ u.read.2.latchHi.toNat ≤ 0x3F ∧
    u.read.2.toggle = u.toggle ∧ u.read.2.vram = u.vram ∧ u.read.2.cycle = u.cycle ∧
    u.read.2.scanline = u.scanline ∧ u.read.2.fb = u.fb

/-- R275: after the address is set, the first data-port read is stale and the second returns the byte at the address. -/
def Obligations.SecondReadReturnsTheByte : Prop :=
  ∀ (u : Ppu) (hi lo : Byte), u.toggle = .highNext →
    let v := (u.writeAddress hi).writeAddress lo
    v.read.1 = u.readBuffer ∧ v.read.2.read.1 = u.vram.read ((256 * hi.toNat + lo.toNat) % 0x4000)

/-- R229: a data-port write stores at the latch address, advances the latch, and leaves the buffer and the toggle. -/
def Obligations.DataPortWriteStores : Prop :=
  ∀ (u : Ppu) (v : Byte),
    (u.writeData v).vram.read (Stated.cur u) = v ∧
    (∀ k, k ≠ Stated.cur u → (u.writeData v).vram.read k = u.vram.read k) ∧
    Stated.cur (u.writeData v) = (Stated.cur u + 1) % 0x4000 ∧ (u.writeData v).latchHi.toNat ≤ 0x3F ∧
    (u.writeData v).readBuffer = u.readBuffer ∧ (u.writeData v).toggle = u.toggle ∧
    (u.writeData v).cycle = u.cycle ∧ (u.writeData v).scanline = u.scanline ∧ (u.writeData v).fb = u.fb

/-- R222, R224: reads of ports 0 to 6 return 0 and change nothing; writes to ports 0 to 5 are accepted and change nothing, at every alias. For ports 2, 3, 4 this is the spec's decision D16 (log entry 16). -/
def Obligations.OtherPortsAreInert : Prop :=
  ∀ (a : Addr) (v : Byte) (s : State), 0x2000 ≤ a.toNat → a.toNat < 0x4000 →
    (a.toNat % 8 ≠ 7 → memRead a s = (0, s)) ∧ (a.toNat % 8 ≤ 5 → memWrite a v s = .goesOn s)

/-- R228: a full-address set masks the address to 14 bits and returns the toggle to HIGH_NEXT. That the host calls it at launch only is the spec's decision D17 (log entry 17). -/
def Obligations.SetAddressResetsTheToggle : Prop :=
  ∀ (u : Ppu) (a : Addr), Stated.cur (u.setAddress a) = a.toNat % 0x4000 ∧
    (u.setAddress a).toggle = .highNext ∧
    u.setAddress a = { u with latchHi := (u.setAddress a).latchHi, latchLo := (u.setAddress a).latchLo, toggle := .highNext }

/-- R232: the pixel of a tile is twice the high plane's bit plus the low plane's bit, bit 7 leftmost. Plane order and bit order are the spec's decision D19 (log entry 19). -/
def Obligations.TileDecoding : Prop :=
  ∀ (chr : Memory) (i y x : Nat), x < 8 → y < 8 → (tilePixel chr i y x).toNat = Stated.tile chr i y x

/-- R235: building row `r` gives its 8 by 256 pixels the palette value of the tile the name table selects, leaves every other pixel, and changes nothing else. The name table's place, the row index and the tile order are the spec's decision D19 (log entries 10, 19). -/
def Obligations.BuildRowDrawsItsTiles : Prop :=
  ∀ (q : Params) (r : Nat) (u : Ppu),
    (∀ y x, y < 8 → x < 256 → (u.buildRow q r).fb.pixel (8 * r + y) x =
      Stated.colour q.palette (Stated.tile q.chr (u.vram.read (0x2000 + 32 * r + x / 8)).toNat y (x % 8))) ∧
    (∀ y x, x < 256 → (y < 8 * r ∨ 8 * r + 8 ≤ y) → (u.buildRow q r).fb.pixel y x = u.fb.pixel y x) ∧
    u.buildRow q r = { u with fb := (u.buildRow q r).fb }

/-- R234: `ppu.run` is the rule's loop: below 341 it only accumulates; from 341 up one scanline passes and the loop goes on with what is left. The loop form is the spec's decision D20 (log entry 20). -/
def Obligations.RunIsTheScanlineLoop : Prop :=
  ∀ (q : Params) (n : Nat) (u : Ppu),
    (u.cycle + n < 341 → u.run q n = ({ u with cycle := u.cycle + n }, false)) ∧
    (341 ≤ u.cycle + n →
      let l := Stated.oneLine q { u with cycle := u.cycle + n }
      u.run q n = ((l.1.run q 0).1, l.2 || (l.1.run q 0).2))

/-- R234's consequence: a frame is 341 times 262 = 89342 cycles; `ppu.run` moves the VideoUnit's place on by `n` modulo that, keeps the counters in range, and signals a frame exactly when the place passes the end. The spec marks the frame length as its own inference (R234; log entry 20). -/
def Obligations.RunKeepsFrameTime : Prop :=
  ∀ (q : Params) (n : Nat) (u : Ppu), u.cycle < 341 → u.scanline < 262 →
    (u.run q n).1.cycle < 341 ∧ (u.run q n).1.scanline < 262 ∧
    Stated.place (u.run q n).1 = (Stated.place u + n) % 89342 ∧
    ((u.run q n).2 = true ↔ 89342 ≤ Stated.place u + n)

/-! ### The boot image -/

/-- R273: an image of one program unit and at least one graphics unit, long enough for both, gives `PRG[k]` = byte `16 + k` and `CHR[k]` = byte `16400 + k`. The loader is outside the core (R3); one program unit is the spec's decision D13 (log entry 26). That such an image loads whatever its other 14 header bytes hold and whatever follows the last block is the model's choice (DESIGN CHOICE, log entry 31). -/
def Obligations.BootImageLayout : Prop :=
  ∀ (image : List Byte) (units : Nat), image.getD 4 0 = 1 → (image.getD 5 0).toNat = units → 1 ≤ units →
    16 + 16384 + 8192 * units ≤ image.length →
    ∃ prg chr, ofImage image = .ok (prg, chr) ∧
      (∀ k, k < 16384 → prg.read k = image.getD (16 + k) 0) ∧
      (∀ k, k < 8192 * units → chr.read k = image.getD (16400 + k) 0)
end

