-- ==== Sys2Proof/Laws/Decode.lean ====
section
/-! SUPPORT. The laws of the instruction table and of fetching an instruction. -/

namespace Sys2Proof

/-- A row that is found is a row of the table, and the one of that opcode byte. -/
theorem lookup_some {op : Byte} {d : Descriptor} (h : lookup op = some d) : d ∈ table ∧ d.op = op :=
  ⟨List.mem_of_find?_eq_some h, by simpa using List.find?_some h⟩

/-- The form of a row builds instructions whose encoding is the row's opcode byte and the operand bytes. -/
def Descriptor.Encodes (d : Descriptor) : Prop :=
  match d.form with
  | .f1 i => encode i = [d.op]
  | .f2 build => ∀ b, encode (build b) = [d.op, b]
  | .f3 build => ∀ lo hi, encode (build lo hi) = [d.op, lo, hi]

theorem table_encodes : ∀ d ∈ table, d.Encodes := by
  simp [table, loadRows, storeRows, controlRows, incDecRows, systemRows, Descriptor.Encodes, encode]

theorem lookup_encodes {op : Byte} {d : Descriptor} (h : lookup op = some d) : d.Encodes :=
  table_encodes d (lookup_some h).1

/-- Every instruction's opcode byte has a row. -/
theorem lookup_opcode_isSome (i : Instr) : (lookup i.opcode).isSome = true := by
  cases i <;> rfl

/-- The length of an encoding: one byte and the operand bytes (R90). -/
theorem encode_ne_nil (i : Instr) : encode i ≠ [] := by
  cases i <;> simp [encode]

/-- No two rows of the table have the same opcode byte (R98). -/
theorem table_opcodes_nodup : (table.map Descriptor.op).Nodup := by decide

/-- The mode of a row asks for as many operand bytes as its form takes (R91, R92). -/
theorem table_modes_match : table.all (fun d => d.mode.operandBytes == d.form.operandBytes) = true := by decide

end Sys2Proof

namespace Sys2Proof.Machine

/-- What fetching an instruction answers, by the row of the opcode byte (R92, R99). -/
theorem fetchInstr_none {s : State} (h : lookup (fetch s).1 = none) :
    fetchInstr s = (.error (fetch s).1, (fetch s).2) := by
  simp only [fetchInstr, h]

theorem fetchInstr_f1 {s : State} {d : Descriptor} {i : Instr} (h : lookup (fetch s).1 = some d)
    (hf : d.form = .f1 i) : fetchInstr s = (.ok i, (fetch s).2) := by
  simp only [fetchInstr, h, hf]

theorem fetchInstr_f2 {s : State} {d : Descriptor} {build : Byte → Instr} (h : lookup (fetch s).1 = some d)
    (hf : d.form = .f2 build) :
    fetchInstr s = (.ok (build (fetch (fetch s).2).1), (fetch (fetch s).2).2) := by
  simp only [fetchInstr, h, hf]

theorem fetchInstr_f3 {s : State} {d : Descriptor} {build : Byte → Byte → Instr}
    (h : lookup (fetch s).1 = some d) (hf : d.form = .f3 build) :
    fetchInstr s = (.ok (build (fetch (fetch s).2).1 (fetch (fetch (fetch s).2).2).1),
      (fetch (fetch (fetch s).2).2).2) := by
  simp only [fetchInstr, h, hf]

/-- A byte without a row is fetched alone and answered as the error. -/
theorem fetchInstr_error {s : State} {op : Byte} (h : (fetchInstr s).1 = .error op) :
    op = (fetch s).1 ∧ lookup op = none ∧ (fetchInstr s).2 = (fetch s).2 := by
  cases hl : lookup (fetch s).1 with
  | none => rw [fetchInstr_none hl] at h ⊢; cases h; exact ⟨rfl, hl, rfl⟩
  | some d =>
    cases hf : d.form with
    | f1 i => rw [fetchInstr_f1 hl hf] at h; cases h
    | f2 build => rw [fetchInstr_f2 hl hf] at h; cases h
    | f3 build => rw [fetchInstr_f3 hl hf] at h; cases h

end Sys2Proof.Machine
end

