-- ==== Sys2Proof/Laws/State.lean ====
section
/-! SUPPORT. One lemma per field per update of State, true by rfl, so that no later proof unfolds a record update. -/

namespace Sys2Proof.Machine

variable (s : State)

@[simp] theorem State.setA_a (v : Byte) : (s.setA v).a = v := rfl
@[simp] theorem State.setA_x (v : Byte) : (s.setA v).x = s.x := rfl
@[simp] theorem State.setA_y (v : Byte) : (s.setA v).y = s.y := rfl
@[simp] theorem State.setA_sp (v : Byte) : (s.setA v).sp = s.sp := rfl
@[simp] theorem State.setA_pc (v : Byte) : (s.setA v).pc = s.pc := rfl
@[simp] theorem State.setA_p (v : Byte) : (s.setA v).p = s.p := rfl
@[simp] theorem State.setA_ram (v : Byte) : (s.setA v).ram = s.ram := rfl
@[simp] theorem State.setA_ppu (v : Byte) : (s.setA v).ppu = s.ppu := rfl
@[simp] theorem State.setA_halted (v : Byte) : (s.setA v).halted = s.halted := rfl
@[simp] theorem State.setA_params (v : Byte) : (s.setA v).params = s.params := rfl

@[simp] theorem State.setX_a (v : Byte) : (s.setX v).a = s.a := rfl
@[simp] theorem State.setX_x (v : Byte) : (s.setX v).x = v := rfl
@[simp] theorem State.setX_y (v : Byte) : (s.setX v).y = s.y := rfl
@[simp] theorem State.setX_sp (v : Byte) : (s.setX v).sp = s.sp := rfl
@[simp] theorem State.setX_pc (v : Byte) : (s.setX v).pc = s.pc := rfl
@[simp] theorem State.setX_p (v : Byte) : (s.setX v).p = s.p := rfl
@[simp] theorem State.setX_ram (v : Byte) : (s.setX v).ram = s.ram := rfl
@[simp] theorem State.setX_ppu (v : Byte) : (s.setX v).ppu = s.ppu := rfl
@[simp] theorem State.setX_halted (v : Byte) : (s.setX v).halted = s.halted := rfl
@[simp] theorem State.setX_params (v : Byte) : (s.setX v).params = s.params := rfl

@[simp] theorem State.setY_a (v : Byte) : (s.setY v).a = s.a := rfl
@[simp] theorem State.setY_x (v : Byte) : (s.setY v).x = s.x := rfl
@[simp] theorem State.setY_y (v : Byte) : (s.setY v).y = v := rfl
@[simp] theorem State.setY_sp (v : Byte) : (s.setY v).sp = s.sp := rfl
@[simp] theorem State.setY_pc (v : Byte) : (s.setY v).pc = s.pc := rfl
@[simp] theorem State.setY_p (v : Byte) : (s.setY v).p = s.p := rfl
@[simp] theorem State.setY_ram (v : Byte) : (s.setY v).ram = s.ram := rfl
@[simp] theorem State.setY_ppu (v : Byte) : (s.setY v).ppu = s.ppu := rfl
@[simp] theorem State.setY_halted (v : Byte) : (s.setY v).halted = s.halted := rfl
@[simp] theorem State.setY_params (v : Byte) : (s.setY v).params = s.params := rfl

@[simp] theorem State.setSP_a (v : Byte) : (s.setSP v).a = s.a := rfl
@[simp] theorem State.setSP_x (v : Byte) : (s.setSP v).x = s.x := rfl
@[simp] theorem State.setSP_y (v : Byte) : (s.setSP v).y = s.y := rfl
@[simp] theorem State.setSP_sp (v : Byte) : (s.setSP v).sp = v := rfl
@[simp] theorem State.setSP_pc (v : Byte) : (s.setSP v).pc = s.pc := rfl
@[simp] theorem State.setSP_p (v : Byte) : (s.setSP v).p = s.p := rfl
@[simp] theorem State.setSP_ram (v : Byte) : (s.setSP v).ram = s.ram := rfl
@[simp] theorem State.setSP_ppu (v : Byte) : (s.setSP v).ppu = s.ppu := rfl
@[simp] theorem State.setSP_halted (v : Byte) : (s.setSP v).halted = s.halted := rfl
@[simp] theorem State.setSP_params (v : Byte) : (s.setSP v).params = s.params := rfl

@[simp] theorem State.setPC_a (v : Addr) : (s.setPC v).a = s.a := rfl
@[simp] theorem State.setPC_x (v : Addr) : (s.setPC v).x = s.x := rfl
@[simp] theorem State.setPC_y (v : Addr) : (s.setPC v).y = s.y := rfl
@[simp] theorem State.setPC_sp (v : Addr) : (s.setPC v).sp = s.sp := rfl
@[simp] theorem State.setPC_pc (v : Addr) : (s.setPC v).pc = v := rfl
@[simp] theorem State.setPC_p (v : Addr) : (s.setPC v).p = s.p := rfl
@[simp] theorem State.setPC_ram (v : Addr) : (s.setPC v).ram = s.ram := rfl
@[simp] theorem State.setPC_ppu (v : Addr) : (s.setPC v).ppu = s.ppu := rfl
@[simp] theorem State.setPC_halted (v : Addr) : (s.setPC v).halted = s.halted := rfl
@[simp] theorem State.setPC_params (v : Addr) : (s.setPC v).params = s.params := rfl

@[simp] theorem State.setP_a (v : Byte) : (s.setP v).a = s.a := rfl
@[simp] theorem State.setP_x (v : Byte) : (s.setP v).x = s.x := rfl
@[simp] theorem State.setP_y (v : Byte) : (s.setP v).y = s.y := rfl
@[simp] theorem State.setP_sp (v : Byte) : (s.setP v).sp = s.sp := rfl
@[simp] theorem State.setP_pc (v : Byte) : (s.setP v).pc = s.pc := rfl
@[simp] theorem State.setP_p (v : Byte) : (s.setP v).p = v := rfl
@[simp] theorem State.setP_ram (v : Byte) : (s.setP v).ram = s.ram := rfl
@[simp] theorem State.setP_ppu (v : Byte) : (s.setP v).ppu = s.ppu := rfl
@[simp] theorem State.setP_halted (v : Byte) : (s.setP v).halted = s.halted := rfl
@[simp] theorem State.setP_params (v : Byte) : (s.setP v).params = s.params := rfl

@[simp] theorem State.setRam_a (m : Memory) : (s.setRam m).a = s.a := rfl
@[simp] theorem State.setRam_x (m : Memory) : (s.setRam m).x = s.x := rfl
@[simp] theorem State.setRam_y (m : Memory) : (s.setRam m).y = s.y := rfl
@[simp] theorem State.setRam_sp (m : Memory) : (s.setRam m).sp = s.sp := rfl
@[simp] theorem State.setRam_pc (m : Memory) : (s.setRam m).pc = s.pc := rfl
@[simp] theorem State.setRam_p (m : Memory) : (s.setRam m).p = s.p := rfl
@[simp] theorem State.setRam_ram (m : Memory) : (s.setRam m).ram = m := rfl
@[simp] theorem State.setRam_ppu (m : Memory) : (s.setRam m).ppu = s.ppu := rfl
@[simp] theorem State.setRam_halted (m : Memory) : (s.setRam m).halted = s.halted := rfl
@[simp] theorem State.setRam_params (m : Memory) : (s.setRam m).params = s.params := rfl

@[simp] theorem State.setPpu_a (u : Ppu) : (s.setPpu u).a = s.a := rfl
@[simp] theorem State.setPpu_x (u : Ppu) : (s.setPpu u).x = s.x := rfl
@[simp] theorem State.setPpu_y (u : Ppu) : (s.setPpu u).y = s.y := rfl
@[simp] theorem State.setPpu_sp (u : Ppu) : (s.setPpu u).sp = s.sp := rfl
@[simp] theorem State.setPpu_pc (u : Ppu) : (s.setPpu u).pc = s.pc := rfl
@[simp] theorem State.setPpu_p (u : Ppu) : (s.setPpu u).p = s.p := rfl
@[simp] theorem State.setPpu_ram (u : Ppu) : (s.setPpu u).ram = s.ram := rfl
@[simp] theorem State.setPpu_ppu (u : Ppu) : (s.setPpu u).ppu = u := rfl
@[simp] theorem State.setPpu_halted (u : Ppu) : (s.setPpu u).halted = s.halted := rfl
@[simp] theorem State.setPpu_params (u : Ppu) : (s.setPpu u).params = s.params := rfl

@[simp] theorem State.setHalted_a (h : Option FatalCause) : (s.setHalted h).a = s.a := rfl
@[simp] theorem State.setHalted_x (h : Option FatalCause) : (s.setHalted h).x = s.x := rfl
@[simp] theorem State.setHalted_y (h : Option FatalCause) : (s.setHalted h).y = s.y := rfl
@[simp] theorem State.setHalted_sp (h : Option FatalCause) : (s.setHalted h).sp = s.sp := rfl
@[simp] theorem State.setHalted_pc (h : Option FatalCause) : (s.setHalted h).pc = s.pc := rfl
@[simp] theorem State.setHalted_p (h : Option FatalCause) : (s.setHalted h).p = s.p := rfl
@[simp] theorem State.setHalted_ram (h : Option FatalCause) : (s.setHalted h).ram = s.ram := rfl
@[simp] theorem State.setHalted_ppu (h : Option FatalCause) : (s.setHalted h).ppu = s.ppu := rfl
@[simp] theorem State.setHalted_halted (h : Option FatalCause) : (s.setHalted h).halted = h := rfl
@[simp] theorem State.setHalted_params (h : Option FatalCause) : (s.setHalted h).params = s.params := rfl

end Sys2Proof.Machine
end

