-- ==== Sys2Proof/Laws/Flags.lean ====
section
/-! SUPPORT. The laws of the flag computations, bit by bit. -/

namespace Sys2Proof.Machine

theorem Flag.bit_lt (f : Flag) : f.bit < 8 := by cases f <;> decide

/-- One bit of `1 << n` in a byte. -/
theorem getLsbD_oneShift (n k : Nat) (hn : n < 8) : (1#8 <<< n).getLsbD k = decide (k = n) := by
  rw [BitVec.getLsbD_shiftLeft]
  by_cases hk : k = n
  · subst hk; simp [hn]
  · by_cases h1 : k < n
    · simp [h1, hk]
    · have h2 : k - n ≠ 0 := by omega
      simp [hk, BitVec.getLsbD_one, h2]

/-- A flag write sets its own bit and leaves every other one. -/
theorem withFlag_getLsbD (p : Byte) (f : Flag) (b : Bool) (k : Nat) (hk : k < 8) :
    (withFlag p f b).getLsbD k = if k = f.bit then b else p.getLsbD k := by
  have hs := getLsbD_oneShift f.bit k f.bit_lt
  cases b
  · rw [show withFlag p f false = p &&& ~~~(1#8 <<< f.bit) from rfl, BitVec.getLsbD_and, BitVec.getLsbD_not, hs]
    by_cases h : k = f.bit <;> simp [h, hk]
  · rw [show withFlag p f true = p ||| (1#8 <<< f.bit) from rfl, BitVec.getLsbD_or, hs]
    by_cases h : k = f.bit <;> simp [h]

/-- The flag rule, bit by bit: bit 1 is the zero test, bit 7 the sign, the rest as before. -/
theorem nzByte_getLsbD (p v : Byte) (k : Nat) (hk : k < 8) :
    (nzByte p v).getLsbD k = if k = 7 then v.msb else if k = 1 then v == 0 else p.getLsbD k := by
  unfold nzByte
  rw [withFlag_getLsbD _ _ _ _ hk, withFlag_getLsbD _ _ _ _ hk]
  rfl

@[simp] theorem setNZ_p (v : Byte) (s : State) : (setNZ v s).p = nzByte s.p v := rfl
@[simp] theorem setNZ_a (v : Byte) (s : State) : (setNZ v s).a = s.a := rfl
@[simp] theorem setNZ_x (v : Byte) (s : State) : (setNZ v s).x = s.x := rfl
@[simp] theorem setNZ_y (v : Byte) (s : State) : (setNZ v s).y = s.y := rfl
@[simp] theorem setNZ_sp (v : Byte) (s : State) : (setNZ v s).sp = s.sp := rfl
@[simp] theorem setNZ_pc (v : Byte) (s : State) : (setNZ v s).pc = s.pc := rfl
@[simp] theorem setNZ_ram (v : Byte) (s : State) : (setNZ v s).ram = s.ram := rfl
@[simp] theorem setNZ_ppu (v : Byte) (s : State) : (setNZ v s).ppu = s.ppu := rfl
@[simp] theorem setNZ_halted (v : Byte) (s : State) : (setNZ v s).halted = s.halted := rfl
@[simp] theorem setNZ_params (v : Byte) (s : State) : (setNZ v s).params = s.params := rfl

/-- SEI's flag write, bit by bit. -/
theorem setIRQDisable_getLsbD (s : State) (k : Nat) (hk : k < 8) :
    (setIRQDisable s).p.getLsbD k = if k = 2 then true else s.p.getLsbD k :=
  withFlag_getLsbD s.p .I true k hk

end Sys2Proof.Machine
end

