-- ==== Sys2Proof/Laws/Memory.lean ====
section
/-! SUPPORT. The laws of sparse storage: what a read gives after a write or a fill, that both keep the canonical form, and that canonical storages with the same reads are the same data. -/

namespace Sys2Proof.Machine

variable {α : Type}

/-! ### Reads -/

@[simp] theorem Cells.read_nil (d : α) (k : Nat) : Cells.read d ([] : Cells α) k = d := rfl

theorem Cells.read_cons (d : α) (k' : Nat) (v : α) (m : Cells α) (k : Nat) :
    Cells.read d ((k', v) :: m) k = if k = k' then v else Cells.read d m k := rfl

/-- A key no entry has reads as the unlisted value. -/
theorem Cells.read_of_absent (d : α) (m : Cells α) (k : Nat) (h : ∀ c ∈ m, c.1 ≠ k) :
    Cells.read d m k = d := by
  induction m with
  | nil => rfl
  | cons c m ih =>
    rw [show c = (c.1, c.2) from rfl, Cells.read_cons, if_neg (h c (by simp)).symm]
    exact ih fun e he => h e (by simp [he])

/-- A filter that keeps every entry of key `k` keeps the read at `k`. -/
theorem Cells.read_filter (d : α) (f : Nat × α → Bool) (m : Cells α) (k : Nat)
    (h : ∀ c : Nat × α, c.1 = k → f c = true) : Cells.read d (m.filter f) k = Cells.read d m k := by
  induction m with
  | nil => rfl
  | cons c m ih =>
    obtain ⟨k', v⟩ := c
    by_cases hk : k = k'
    · simp [h (k', v) hk.symm, Cells.read_cons, hk]
    · by_cases hf : f (k', v) = true <;> simp [hf, Cells.read_cons, hk, ih]

theorem Cells.read_append (d : α) (m m' : Cells α) (k : Nat) :
    Cells.read d (m ++ m') k = if ∃ c ∈ m, c.1 = k then Cells.read d m k else Cells.read d m' k := by
  induction m with
  | nil => simp
  | cons c m ih =>
    obtain ⟨k', v⟩ := c
    by_cases hk : k = k'
    · simp [Cells.read_cons, hk]
    · have hk' : ¬ k' = k := fun h => hk h.symm
      simp only [List.cons_append, Cells.read_cons, hk, if_false, ih, List.mem_cons, exists_eq_or_imp, hk', false_or]

theorem Cells.read_insert (d : α) (m : Cells α) (k j : Nat) (v : α) :
    Cells.read d (Cells.insert m k v) j = if j = k then v else Cells.read d m j := by
  induction m with
  | nil => rfl
  | cons c m ih =>
    obtain ⟨k', w⟩ := c
    simp only [Cells.insert]
    split
    · rfl
    · split
      · rename_i h; subst h
        simp only [Cells.read_cons]; split <;> simp_all
      · rename_i h
        simp only [Cells.read_cons, ih]
        by_cases hj : j = k' <;> by_cases hk : j = k <;> simp_all

variable [DecidableEq α]

/-- Read after write: the written cell reads the value, every other cell reads as before. -/
theorem Cells.read_write (d : α) (m : Cells α) (k j : Nat) (v : α) :
    Cells.read d (Cells.write d m k v) j = if j = k then v else Cells.read d m j := by
  unfold Cells.write
  split
  · rename_i h
    by_cases hj : j = k
    · subst hj; rw [if_pos rfl, h]
      exact Cells.read_of_absent d _ _ (by simp)
    · rw [if_neg hj]
      exact Cells.read_filter d _ m j (by rintro ⟨c, w⟩ rfl; simpa using hj)
  · exact Cells.read_insert d m k j v

theorem Cells.read_block (d : α) (lo n : Nat) (f : Nat → α) (j : Nat) (h : j < n) :
    Cells.read d (Cells.block d lo n f) (lo + j) = f j := by
  induction n with
  | zero => omega
  | succ n ih =>
    have hb : Cells.block d lo (n + 1) f
        = Cells.block d lo n f ++ (if f n = d then [] else [(lo + n, f n)]) := by
      unfold Cells.block
      rw [List.range_succ, List.filterMap_append]
      by_cases hd : f n = d <;> simp [hd]
    rw [hb, Cells.read_append]
    by_cases hj : j = n
    · subst hj
      rw [if_neg]
      · by_cases hd : f j = d <;> simp [hd, Cells.read_cons]
      · rintro ⟨c, hc, he⟩
        simp only [Cells.block, List.mem_filterMap, List.mem_range] at hc
        obtain ⟨i, hi, hc⟩ := hc
        split at hc
        · simp at hc
        · simp only [Option.some.injEq] at hc; subst hc; simp at he; omega
    · have hj' : j < n := by omega
      split
      · exact ih hj'
      · rename_i hno
        have h1 : Cells.read d (Cells.block d lo n f) (lo + j) = d :=
          Cells.read_of_absent d _ _ fun c hc he => hno ⟨c, hc, he⟩
        rw [ih hj'] at h1
        rw [h1]
        split
        · rfl
        · rw [Cells.read_cons, if_neg (by omega), Cells.read_nil]

theorem Cells.key_of_mem_block (d : α) (lo n : Nat) (f : Nat → α) (c : Nat × α)
    (h : c ∈ Cells.block d lo n f) : lo ≤ c.1 ∧ c.1 < lo + n ∧ c.2 ≠ d := by
  simp only [Cells.block, List.mem_filterMap, List.mem_range] at h
  obtain ⟨i, hi, hc⟩ := h
  split at hc
  · simp at hc
  · rename_i hd
    simp only [Option.some.injEq] at hc; subst hc; exact ⟨by simp, by simpa using hi, hd⟩

/-- Read after fill: a cell of the range reads what the range was given, every other cell reads as before. -/
theorem Cells.read_fill (d : α) (m : Cells α) (lo n : Nat) (f : Nat → α) (k : Nat) :
    Cells.read d (Cells.fill d m lo n f) k
      = if lo ≤ k ∧ k < lo + n then f (k - lo) else Cells.read d m k := by
  unfold Cells.fill
  rw [List.append_assoc, Cells.read_append, Cells.read_append]
  by_cases hlo : k < lo
  · rw [if_neg (by omega : ¬ (lo ≤ k ∧ k < lo + n))]
    have hA := Cells.read_filter d (fun c => decide (c.1 < lo)) m k (by rintro c rfl; simpa using hlo)
    split
    · exact hA
    · rename_i hno
      rw [Cells.read_of_absent d _ _ fun c hc he => hno ⟨c, hc, he⟩] at hA
      rw [← hA, if_neg]
      · exact Cells.read_of_absent d _ _ fun c hc he => by
          simp only [List.mem_filter, decide_eq_true_eq] at hc; omega
      · rintro ⟨c, hc, he⟩
        have := Cells.key_of_mem_block d lo n f c hc; omega
  · rw [if_neg (by rintro ⟨c, hc, he⟩; simp only [List.mem_filter, decide_eq_true_eq] at hc; omega)]
    by_cases hhi : k < lo + n
    · rw [if_pos (by omega : lo ≤ k ∧ k < lo + n)]
      have hB := Cells.read_block d lo n f (k - lo) (by omega)
      rw [show lo + (k - lo) = k by omega] at hB
      split
      · exact hB
      · rename_i hno
        rw [Cells.read_of_absent d _ _ fun c hc he => hno ⟨c, hc, he⟩] at hB
        rw [← hB]
        exact Cells.read_of_absent d _ _ fun c hc he => by
          simp only [List.mem_filter, decide_eq_true_eq] at hc; omega
    · rw [if_neg (by omega : ¬ (lo ≤ k ∧ k < lo + n)), if_neg]
      · exact Cells.read_filter d _ m k (by rintro c rfl; simp; omega)
      · rintro ⟨c, hc, he⟩
        have := Cells.key_of_mem_block d lo n f c hc; omega

/-! ### The canonical form -/

theorem Cells.wfFrom_cons (d : α) (n lo k : Nat) (v : α) (m : Cells α) :
    Cells.wfFrom d n lo ((k, v) :: m) = true ↔
      lo ≤ k ∧ k < n ∧ v ≠ d ∧ Cells.wfFrom d n (k + 1) m = true := by
  simp [Cells.wfFrom, and_assoc]

/-- Canonical from a key on is canonical from a lower key on. -/
theorem Cells.wfFrom_mono (d : α) (n lo lo' : Nat) (m : Cells α) (h : lo' ≤ lo)
    (hm : Cells.wfFrom d n lo m = true) : Cells.wfFrom d n lo' m = true := by
  cases m with
  | nil => rfl
  | cons c m =>
    obtain ⟨k, v⟩ := c
    rw [Cells.wfFrom_cons] at hm ⊢
    exact ⟨by omega, hm.2⟩

/-- Every listed key is in range and no listed value is the unlisted one. -/
theorem Cells.mem_of_wfFrom (d : α) (n : Nat) (m : Cells α) (lo : Nat) (hm : Cells.wfFrom d n lo m = true)
    (c : Nat × α) (hc : c ∈ m) : lo ≤ c.1 ∧ c.1 < n ∧ c.2 ≠ d := by
  induction m generalizing lo with
  | nil => simp at hc
  | cons e m ih =>
    obtain ⟨k, v⟩ := e
    rw [Cells.wfFrom_cons] at hm
    rcases List.mem_cons.1 hc with rfl | hc
    · exact ⟨hm.1, hm.2.1, hm.2.2.1⟩
    · have := ih (k + 1) hm.2.2.2 hc; exact ⟨by omega, this.2⟩

theorem Cells.wfFrom_filter (d : α) (n : Nat) (f : Nat × α → Bool) (m : Cells α) (lo : Nat)
    (hm : Cells.wfFrom d n lo m = true) : Cells.wfFrom d n lo (m.filter f) = true := by
  induction m generalizing lo with
  | nil => rfl
  | cons e m ih =>
    obtain ⟨k, v⟩ := e
    rw [Cells.wfFrom_cons] at hm
    by_cases hf : f (k, v) = true
    · rw [List.filter_cons_of_pos hf, Cells.wfFrom_cons]
      exact ⟨hm.1, hm.2.1, hm.2.2.1, ih _ hm.2.2.2⟩
    · rw [List.filter_cons_of_neg hf]
      exact Cells.wfFrom_mono d n (k + 1) lo _ (by omega) (ih _ hm.2.2.2)

theorem Cells.wfFrom_insert (d : α) (n : Nat) (m : Cells α) (lo k : Nat) (v : α)
    (hm : Cells.wfFrom d n lo m = true) (hlo : lo ≤ k) (hk : k < n) (hv : v ≠ d) :
    Cells.wfFrom d n lo (Cells.insert m k v) = true := by
  induction m generalizing lo with
  | nil => simp [Cells.insert, Cells.wfFrom, hlo, hk, hv]
  | cons e m ih =>
    obtain ⟨k', w⟩ := e
    rw [Cells.wfFrom_cons] at hm
    simp only [Cells.insert]
    split
    · rename_i h
      rw [Cells.wfFrom_cons, Cells.wfFrom_cons]
      exact ⟨hlo, hk, hv, by omega, hm.2⟩
    · split
      · rename_i h; subst h
        rw [Cells.wfFrom_cons]; exact ⟨hlo, hk, hv, hm.2.2.2⟩
      · rw [Cells.wfFrom_cons]
        exact ⟨hm.1, hm.2.1, hm.2.2.1, ih _ hm.2.2.2 (by omega)⟩

/-- A write in range keeps the canonical form. -/
theorem Cells.wfFrom_write (d : α) (n : Nat) (m : Cells α) (lo k : Nat) (v : α)
    (hm : Cells.wfFrom d n lo m = true) (hlo : lo ≤ k) (hk : k < n) :
    Cells.wfFrom d n lo (Cells.write d m k v) = true := by
  unfold Cells.write
  split
  · exact Cells.wfFrom_filter d n _ m lo hm
  · rename_i h; exact Cells.wfFrom_insert d n m lo k v hm hlo hk h

/-- Two canonical storages, the keys of the first below those of the second, are canonical one after the other. -/
theorem Cells.wfFrom_append (d : α) (n mid : Nat) (m m' : Cells α) (lo : Nat)
    (hm : Cells.wfFrom d n lo m = true) (hb : ∀ c ∈ m, c.1 < mid) (hlo : lo ≤ mid)
    (hm' : Cells.wfFrom d n mid m' = true) : Cells.wfFrom d n lo (m ++ m') = true := by
  induction m generalizing lo with
  | nil => exact Cells.wfFrom_mono d n mid lo m' hlo hm'
  | cons e m ih =>
    obtain ⟨k, v⟩ := e
    rw [Cells.wfFrom_cons] at hm
    rw [List.cons_append, Cells.wfFrom_cons]
    exact ⟨hm.1, hm.2.1, hm.2.2.1, ih _ hm.2.2.2 (fun c hc => hb c (by simp [hc])) (hb (k, v) (by simp))⟩

theorem Cells.wfFrom_block (d : α) (n lo len : Nat) (f : Nat → α) (h : lo + len ≤ n) :
    Cells.wfFrom d n lo (Cells.block d lo len f) = true := by
  induction len with
  | zero => rfl
  | succ len ih =>
    have hb : Cells.block d lo (len + 1) f
        = Cells.block d lo len f ++ (if f len = d then [] else [(lo + len, f len)]) := by
      unfold Cells.block
      rw [List.range_succ, List.filterMap_append]
      by_cases hd : f len = d <;> simp [hd]
    rw [hb]
    refine Cells.wfFrom_append d n (lo + len) _ _ lo (ih (by omega)) (fun c hc => (Cells.key_of_mem_block d lo len f c hc).2.1)
      (by omega) ?_
    split
    · rfl
    · rename_i hd; simp [Cells.wfFrom, hd]; omega

/-- Canonical from `lo` on, and every key from `lo'` on: canonical from `lo'` on. -/
theorem Cells.wfFrom_raise (d : α) (n : Nat) (m : Cells α) (lo lo' : Nat) (hm : Cells.wfFrom d n lo m = true)
    (h : ∀ c ∈ m, lo' ≤ c.1) : Cells.wfFrom d n lo' m = true := by
  cases m with
  | nil => rfl
  | cons e m =>
    obtain ⟨k, v⟩ := e
    rw [Cells.wfFrom_cons] at hm ⊢
    exact ⟨h (k, v) (by simp), hm.2⟩

/-- Filling a range inside the bound keeps the canonical form. -/
theorem Cells.wf_fill (d : α) (n : Nat) (m : Cells α) (lo len : Nat) (f : Nat → α)
    (hm : Cells.wfFrom d n 0 m = true) (h : lo + len ≤ n) :
    Cells.wfFrom d n 0 (Cells.fill d m lo len f) = true := by
  have hC : Cells.wfFrom d n (lo + len) (m.filter fun c => decide (lo + len ≤ c.1)) = true :=
    Cells.wfFrom_raise d n _ 0 _ (Cells.wfFrom_filter d n _ m 0 hm) (by intro c hc; simpa using (List.mem_filter.1 hc).2)
  unfold Cells.fill
  rw [List.append_assoc]
  refine Cells.wfFrom_append d n lo _ _ 0 (Cells.wfFrom_filter d n _ m 0 hm)
    (by intro c hc; simpa using (List.mem_filter.1 hc).2) (by omega) ?_
  exact Cells.wfFrom_append d n (lo + len) _ _ lo (Cells.wfFrom_block d n lo len f h)
    (fun c hc => (Cells.key_of_mem_block d lo len f c hc).2.1) (by omega) hC

/-- Equal reads are equal data: the canonical form is one form. -/
theorem Cells.ext_of_wf (d : α) (n : Nat) (m m' : Cells α) (lo : Nat) (hm : Cells.wfFrom d n lo m = true)
    (hm' : Cells.wfFrom d n lo m' = true) (h : ∀ k, Cells.read d m k = Cells.read d m' k) : m = m' := by
  induction m generalizing lo m' with
  | nil =>
    cases m' with
    | nil => rfl
    | cons e m' =>
      obtain ⟨k, v⟩ := e
      rw [Cells.wfFrom_cons] at hm'
      have := h k
      simp only [Cells.read_nil, Cells.read_cons, if_true] at this
      exact absurd this.symm hm'.2.2.1
  | cons e m ih =>
    obtain ⟨k, v⟩ := e
    rw [Cells.wfFrom_cons] at hm
    have absent : ∀ (j : Nat) (w : Cells α), Cells.wfFrom d n (j + 1) w = true → Cells.read d w j = d := by
      intro j w hw
      exact Cells.read_of_absent d w j fun c hc he => by
        have := Cells.mem_of_wfFrom d n w (j + 1) hw c hc; omega
    cases m' with
    | nil =>
      have := h k
      simp only [Cells.read_nil, Cells.read_cons, if_true] at this
      exact absurd this hm.2.2.1
    | cons e' m' =>
      obtain ⟨k', v'⟩ := e'
      rw [Cells.wfFrom_cons] at hm'
      have hkk : k = k' := by
        rcases Nat.lt_trichotomy k k' with hlt | heq | hgt
        · have := h k
          rw [Cells.read_cons, if_pos rfl, Cells.read_cons, if_neg (by omega),
            Cells.read_of_absent d m' k fun c hc he => by
              have := Cells.mem_of_wfFrom d n m' (k' + 1) hm'.2.2.2 c hc; omega] at this
          exact absurd this hm.2.2.1
        · exact heq
        · have := h k'
          rw [Cells.read_cons, if_neg (by omega), Cells.read_cons, if_pos rfl,
            Cells.read_of_absent d m k' fun c hc he => by
              have := Cells.mem_of_wfFrom d n m (k + 1) hm.2.2.2 c hc; omega] at this
          exact absurd this.symm hm'.2.2.1
      subst hkk
      have hvv : v = v' := by simpa [Cells.read_cons] using h k
      subst hvv
      refine congrArg _ (ih m' (k + 1) hm.2.2.2 hm'.2.2.2 fun j => ?_)
      by_cases hj : j = k
      · subst hj; rw [absent j m hm.2.2.2, absent j m' hm'.2.2.2]
      · simpa [Cells.read_cons, hj] using h j

/-! ### Byte memories -/

/-- Read after write. -/
theorem Memory.read_write (m : Memory) (k j : Nat) (v : Byte) :
    (m.write k v).read j = if j = k then v else m.read j :=
  Cells.read_write _ m k j v

@[simp] theorem Memory.read_write_same (m : Memory) (k : Nat) (v : Byte) : (m.write k v).read k = v := by
  rw [Memory.read_write, if_pos rfl]

theorem Memory.read_write_other (m : Memory) (k j : Nat) (v : Byte) (h : j ≠ k) :
    (m.write k v).read j = m.read j := by
  rw [Memory.read_write, if_neg h]

/-- A write below the bound keeps the canonical form. -/
theorem Memory.wf_write (bound : Nat) (m : Memory) (k : Nat) (v : Byte) (hm : Memory.wf bound m = true)
    (hk : k < bound) : Memory.wf bound (m.write k v) = true :=
  Cells.wfFrom_write _ bound m 0 k v hm (Nat.zero_le k) hk

/-- Canonical memories with the same bytes are the same data. -/
theorem Memory.ext_of_wf (bound : Nat) (m m' : Memory) (hm : Memory.wf bound m = true)
    (hm' : Memory.wf bound m' = true) (h : ∀ k, m.read k = m'.read k) : m = m' :=
  Cells.ext_of_wf _ bound m m' 0 hm hm' h

/-! ### The frame buffer -/

theorem FrameBuffer.cell_inj {y x y' x' : Nat} (hx : x < 256) (hx' : x' < 256)
    (h : FrameBuffer.cell y x = FrameBuffer.cell y' x') : y = y' ∧ x = x' := by
  simp only [FrameBuffer.cell, Config.fbWidth] at h; omega

end Sys2Proof.Machine
end

