-- ==== Sys2Proof/Laws/Video.lean ====
section
/-! SUPPORT. The laws of the VideoUnit's operations: what each changes, and what it leaves. -/

namespace Sys2Proof.Machine

/-! ### The latch -/

/-- A mask of low ones is a remainder. -/
theorem toNat_and_mask14 (a : Addr) : (a &&& 0x3FFF).toNat = a.toNat % 0x4000 := by
  rw [BitVec.toNat_and]; exact Nat.and_two_pow_sub_one_eq_mod a.toNat 14

theorem toNat_append_bytes (hi lo : Byte) : (hi ++ lo : BitVec 16).toNat = 256 * hi.toNat + lo.toNat := by
  rw [BitVec.toNat_append, ← Nat.shiftLeft_add_eq_or_of_lt lo.isLt, Nat.shiftLeft_eq]; omega

theorem Ppu.cur_toNat (u : Ppu) : u.cur.toNat = (256 * u.latchHi.toNat + u.latchLo.toNat) % 0x4000 := by
  unfold Ppu.cur; rw [toNat_and_mask14, toNat_append_bytes]

theorem Ppu.cur_lt (u : Ppu) : u.cur.toNat < 0x4000 := by rw [Ppu.cur_toNat]; omega

theorem Ppu.setCur_latchHi (u : Ppu) (a : Addr) : (u.setCur a).latchHi.toNat = a.toNat / 256 := by
  have := a.isLt
  simp [Ppu.setCur, BitVec.extractLsb'_toNat, Nat.shiftRight_eq_div_pow]
  omega

theorem Ppu.setCur_latchLo (u : Ppu) (a : Addr) : (u.setCur a).latchLo.toNat = a.toNat % 256 := by
  simp [Ppu.setCur, BitVec.extractLsb'_toNat]

/-- The latch holds a 14-bit address that was set. -/
theorem Ppu.cur_setCur (u : Ppu) (a : Addr) (h : a.toNat < 0x4000) : (u.setCur a).cur = a := by
  apply BitVec.eq_of_toNat_eq
  rw [Ppu.cur_toNat, Ppu.setCur_latchHi, Ppu.setCur_latchLo]; omega

@[simp] theorem Ppu.setCur_vram (u : Ppu) (a : Addr) : (u.setCur a).vram = u.vram := rfl
@[simp] theorem Ppu.setCur_toggle (u : Ppu) (a : Addr) : (u.setCur a).toggle = u.toggle := rfl
@[simp] theorem Ppu.setCur_readBuffer (u : Ppu) (a : Addr) : (u.setCur a).readBuffer = u.readBuffer := rfl
@[simp] theorem Ppu.setCur_cycle (u : Ppu) (a : Addr) : (u.setCur a).cycle = u.cycle := rfl
@[simp] theorem Ppu.setCur_scanline (u : Ppu) (a : Addr) : (u.setCur a).scanline = u.scanline := rfl
@[simp] theorem Ppu.setCur_fb (u : Ppu) (a : Addr) : (u.setCur a).fb = u.fb := rfl

theorem toNat_succ14 (a : Addr) : ((a + 1) &&& 0x3FFF).toNat = (a.toNat + 1) % 0x4000 := by
  rw [toNat_and_mask14, BitVec.toNat_add, show (1 : Addr).toNat = 1 from rfl]; omega

/-- The latch advances by one within 14 bits. -/
theorem Ppu.cur_advance (u : Ppu) : u.advance.cur.toNat = (u.cur.toNat + 1) % 0x4000 := by
  unfold Ppu.advance
  rw [Ppu.cur_setCur _ _ (by rw [toNat_succ14]; omega), toNat_succ14]

theorem Ppu.advance_latchHi_le (u : Ppu) : u.advance.latchHi.toNat ≤ 0x3F := by
  unfold Ppu.advance; rw [Ppu.setCur_latchHi, toNat_succ14]; omega

@[simp] theorem Ppu.advance_vram (u : Ppu) : u.advance.vram = u.vram := rfl
@[simp] theorem Ppu.advance_toggle (u : Ppu) : u.advance.toggle = u.toggle := rfl
@[simp] theorem Ppu.advance_readBuffer (u : Ppu) : u.advance.readBuffer = u.readBuffer := rfl
@[simp] theorem Ppu.advance_cycle (u : Ppu) : u.advance.cycle = u.cycle := rfl
@[simp] theorem Ppu.advance_scanline (u : Ppu) : u.advance.scanline = u.scanline := rfl
@[simp] theorem Ppu.advance_fb (u : Ppu) : u.advance.fb = u.fb := rfl

/-! ### The ports -/

@[simp] theorem Ppu.read_fst (u : Ppu) : u.read.1 = u.readBuffer := rfl
@[simp] theorem Ppu.read_vram (u : Ppu) : u.read.2.vram = u.vram := rfl
@[simp] theorem Ppu.read_toggle (u : Ppu) : u.read.2.toggle = u.toggle := rfl
@[simp] theorem Ppu.read_cycle (u : Ppu) : u.read.2.cycle = u.cycle := rfl
@[simp] theorem Ppu.read_scanline (u : Ppu) : u.read.2.scanline = u.scanline := rfl
@[simp] theorem Ppu.read_fb (u : Ppu) : u.read.2.fb = u.fb := rfl
theorem Ppu.read_latchHi_le (u : Ppu) : u.read.2.latchHi.toNat ≤ 0x3F := Ppu.advance_latchHi_le _

@[simp] theorem Ppu.writeData_readBuffer (v : Byte) (u : Ppu) : (u.writeData v).readBuffer = u.readBuffer := rfl
@[simp] theorem Ppu.writeData_toggle (v : Byte) (u : Ppu) : (u.writeData v).toggle = u.toggle := rfl
@[simp] theorem Ppu.writeData_cycle (v : Byte) (u : Ppu) : (u.writeData v).cycle = u.cycle := rfl
@[simp] theorem Ppu.writeData_scanline (v : Byte) (u : Ppu) : (u.writeData v).scanline = u.scanline := rfl
@[simp] theorem Ppu.writeData_fb (v : Byte) (u : Ppu) : (u.writeData v).fb = u.fb := rfl
@[simp] theorem Ppu.writeData_vram (v : Byte) (u : Ppu) : (u.writeData v).vram = u.vram.write u.cur.toNat v := rfl
theorem Ppu.writeData_latchHi_le (v : Byte) (u : Ppu) : (u.writeData v).latchHi.toNat ≤ 0x3F := Ppu.advance_latchHi_le _

@[simp] theorem Ppu.writeAddress_vram (v : Byte) (u : Ppu) : (u.writeAddress v).vram = u.vram := by
  unfold Ppu.writeAddress; split <;> rfl
@[simp] theorem Ppu.writeAddress_readBuffer (v : Byte) (u : Ppu) : (u.writeAddress v).readBuffer = u.readBuffer := by
  unfold Ppu.writeAddress; split <;> rfl
@[simp] theorem Ppu.writeAddress_cycle (v : Byte) (u : Ppu) : (u.writeAddress v).cycle = u.cycle := by
  unfold Ppu.writeAddress; split <;> rfl
@[simp] theorem Ppu.writeAddress_scanline (v : Byte) (u : Ppu) : (u.writeAddress v).scanline = u.scanline := by
  unfold Ppu.writeAddress; split <;> rfl
@[simp] theorem Ppu.writeAddress_fb (v : Byte) (u : Ppu) : (u.writeAddress v).fb = u.fb := by
  unfold Ppu.writeAddress; split <;> rfl

/-- After an address write that completes a pair the latch is within 14 bits. -/
theorem Ppu.writeAddress_latchHi_le (v : Byte) (u : Ppu) (h : (u.writeAddress v).toggle = .highNext) :
    (u.writeAddress v).latchHi.toNat ≤ 0x3F := by
  unfold Ppu.writeAddress at h ⊢
  split
  · rename_i ht; simp [ht] at h
  · rw [Ppu.setCur_latchHi]
    have := Ppu.cur_lt { u with latchLo := v, toggle := .highNext }
    omega

/-! ### The counters and the picture -/

@[simp] theorem Ppu.addCycles_cycle (n : Nat) (u : Ppu) : (u.addCycles n).cycle = u.cycle + n := rfl
@[simp] theorem Ppu.addCycles_scanline (n : Nat) (u : Ppu) : (u.addCycles n).scanline = u.scanline := rfl
@[simp] theorem Ppu.addCycles_fb (n : Nat) (u : Ppu) : (u.addCycles n).fb = u.fb := rfl
@[simp] theorem Ppu.nextLine_cycle (u : Ppu) : u.nextLine.cycle = u.cycle - 341 := by
  simp only [Ppu.nextLine, Config.cyclesPerLine]
@[simp] theorem Ppu.nextLine_scanline (u : Ppu) : u.nextLine.scanline = u.scanline + 1 := by
  simp only [Ppu.nextLine]
@[simp] theorem Ppu.nextLine_fb (u : Ppu) : u.nextLine.fb = u.fb := by
  simp only [Ppu.nextLine]
@[simp] theorem Ppu.buildRow_cycle (q : Params) (r : Nat) (u : Ppu) : (u.buildRow q r).cycle = u.cycle := rfl
@[simp] theorem Ppu.buildRow_scanline (q : Params) (r : Nat) (u : Ppu) : (u.buildRow q r).scanline = u.scanline := rfl

theorem buildsRow_iff (n : Nat) : buildsRow n = true ↔ n ≤ 240 ∧ n % 8 = 0 := by
  unfold buildsRow
  rw [Bool.and_eq_true, decide_eq_true_iff, decide_eq_true_iff]

@[simp] theorem Ppu.rowIfDue_cycle (q : Params) (u : Ppu) : (u.rowIfDue q).cycle = u.cycle := by
  unfold Ppu.rowIfDue; split <;> rfl
@[simp] theorem Ppu.rowIfDue_scanline (q : Params) (u : Ppu) : (u.rowIfDue q).scanline = u.scanline := by
  unfold Ppu.rowIfDue; split <;> rfl
@[simp] theorem Ppu.frameIfDone_cycle (u : Ppu) : u.frameIfDone.1.cycle = u.cycle := by
  unfold Ppu.frameIfDone; split <;> rfl
@[simp] theorem Ppu.frameIfDone_fb (u : Ppu) : u.frameIfDone.1.fb = u.fb := by
  unfold Ppu.frameIfDone; split <;> rfl
theorem Ppu.frameIfDone_scanline (u : Ppu) :
    u.frameIfDone.1.scanline = if u.scanline = 262 then 0 else u.scanline := by
  unfold Ppu.frameIfDone
  by_cases h : u.scanline = 262
  · rw [if_pos h, if_pos (show u.scanline = Config.linesPerFrame from h)]
  · rw [if_neg h, if_neg (show ¬ u.scanline = Config.linesPerFrame from h)]
theorem Ppu.frameIfDone_snd (u : Ppu) : u.frameIfDone.2 = decide (u.scanline = 262) := by
  unfold Ppu.frameIfDone
  by_cases h : u.scanline = 262
  · rw [if_pos (show u.scanline = Config.linesPerFrame from h)]; simp [h]
  · rw [if_neg (show ¬ u.scanline = Config.linesPerFrame from h)]; simp [h]

@[simp] theorem Ppu.line_cycle (q : Params) (u : Ppu) : (u.line q).1.cycle = u.cycle - 341 := by
  simp [Ppu.line]
theorem Ppu.line_scanline (q : Params) (u : Ppu) :
    (u.line q).1.scanline = if u.scanline + 1 = 262 then 0 else u.scanline + 1 := by
  simp [Ppu.line, Ppu.frameIfDone_scanline]
theorem Ppu.line_snd (q : Params) (u : Ppu) : (u.line q).2 = decide (u.scanline + 1 = 262) := by
  simp [Ppu.line, Ppu.frameIfDone_snd]

/-- The loop's own equation: one line while the accumulator has reached 341. -/
theorem Ppu.lines_succ (q : Params) (fuel : Nat) (u : Ppu) :
    Ppu.lines q (fuel + 1) u = if 341 ≤ u.cycle
      then ((Ppu.lines q fuel (u.line q).1).1, (u.line q).2 || (Ppu.lines q fuel (u.line q).1).2) else (u, false) := by
  rfl

theorem Ppu.run_eq (q : Params) (n : Nat) (u : Ppu) :
    u.run q n = Ppu.lines q ((u.cycle + n) / 341) (u.addCycles n) := by
  simp only [Ppu.run, Ppu.addCycles_cycle, Config.cyclesPerLine]

/-- The same VideoUnit but for the counters and the picture: what `ppu.run` can change. -/
def Ppu.SameButPicture (u v : Ppu) : Prop := ∃ c n f, v = { u with cycle := c, scanline := n, fb := f }

theorem Ppu.SameButPicture.trans {u v w : Ppu} (h : u.SameButPicture v) (h' : v.SameButPicture w) : u.SameButPicture w := by
  obtain ⟨c, n, f, rfl⟩ := h; obtain ⟨c', n', f', rfl⟩ := h'; exact ⟨c', n', f', rfl⟩

theorem Ppu.rowIfDue_same (q : Params) (u : Ppu) : u.SameButPicture (u.rowIfDue q) := by
  unfold Ppu.rowIfDue; split <;> exact ⟨_, _, _, rfl⟩

theorem Ppu.frameIfDone_same (u : Ppu) : u.SameButPicture u.frameIfDone.1 := by
  unfold Ppu.frameIfDone; split <;> exact ⟨_, _, _, rfl⟩

theorem Ppu.line_same (q : Params) (u : Ppu) : u.SameButPicture (u.line q).1 :=
  Ppu.SameButPicture.trans (v := u.nextLine) ⟨_, _, _, rfl⟩
    ((Ppu.rowIfDue_same q u.nextLine).trans (Ppu.frameIfDone_same _))

theorem Ppu.lines_same (q : Params) (fuel : Nat) (u : Ppu) : u.SameButPicture (Ppu.lines q fuel u).1 := by
  induction fuel generalizing u with
  | zero => exact ⟨_, _, _, rfl⟩
  | succ fuel ih =>
    unfold Ppu.lines
    split
    · exact (Ppu.line_same q u).trans (ih _)
    · exact ⟨_, _, _, rfl⟩

/-- `ppu.run` changes the counters and the frame buffer and nothing else. -/
theorem Ppu.run_same (q : Params) (n : Nat) (u : Ppu) : u.SameButPicture (u.run q n).1 :=
  Ppu.SameButPicture.trans (v := u.addCycles n) ⟨_, _, _, rfl⟩ (Ppu.lines_same q _ _)

/-- A pixel after a row is built: the row's own value inside its 2048 cells, the old one elsewhere. -/
theorem Ppu.buildRow_read (q : Params) (r k : Nat) (u : Ppu) :
    Cells.read FrameBuffer.unlisted (u.buildRow q r).fb k
      = if 2048 * r ≤ k ∧ k < 2048 * r + 2048 then rowPixel q u.vram r ((k - 2048 * r) / 256) ((k - 2048 * r) % 256)
        else Cells.read FrameBuffer.unlisted u.fb k := by
  have h1 : FrameBuffer.cell (8 * r) 0 = 2048 * r := by simp only [FrameBuffer.cell, Config.fbWidth]; omega
  unfold Ppu.buildRow
  dsimp only
  rw [Cells.read_fill, h1]
  rfl

/-- Building one of the thirty rows keeps the frame buffer's form. -/
theorem Ppu.buildRow_wf (q : Params) (r : Nat) (u : Ppu) (hr : r < 30) (h : FrameBuffer.wf u.fb = true) :
    FrameBuffer.wf (u.buildRow q r).fb = true := by
  refine Cells.wf_fill _ _ _ _ _ _ h ?_
  simp only [FrameBuffer.cell, Config.fbSize, Config.fbWidth, Config.visibleLines]; omega

theorem Ppu.rowIfDue_wf (q : Params) (u : Ppu) (h : FrameBuffer.wf u.fb = true) :
    FrameBuffer.wf (u.rowIfDue q).fb = true := by
  unfold Ppu.rowIfDue
  split
  · rename_i hb
    rw [buildsRow_iff] at hb
    exact Ppu.buildRow_wf q _ u (by omega) h
  · exact h

/-- One line keeps the scanline in range and the frame buffer's form. -/
theorem Ppu.line_sound (q : Params) (u : Ppu) (hs : u.scanline < 262) (hf : FrameBuffer.wf u.fb = true) :
    (u.line q).1.scanline < 262 ∧ FrameBuffer.wf (u.line q).1.fb = true := by
  refine ⟨?_, ?_⟩
  · rw [Ppu.line_scanline]; split <;> omega
  · simpa [Ppu.line] using Ppu.rowIfDue_wf q u.nextLine (by rwa [Ppu.nextLine_fb])

/-- The loop, given all the fuel it needs, ends below 341 cycles with the scanline in range. -/
theorem Ppu.lines_sound (q : Params) (fuel : Nat) (u : Ppu) (hs : u.scanline < 262)
    (hf : FrameBuffer.wf u.fb = true) (hn : u.cycle / 341 ≤ fuel) :
    (Ppu.lines q fuel u).1.scanline < 262 ∧ FrameBuffer.wf (Ppu.lines q fuel u).1.fb = true ∧
      (Ppu.lines q fuel u).1.cycle < 341 := by
  induction fuel generalizing u with
  | zero => exact ⟨hs, hf, by simp only [Ppu.lines]; omega⟩
  | succ fuel ih =>
    rw [Ppu.lines_succ]
    by_cases hc : 341 ≤ u.cycle
    · rw [if_pos hc]
      obtain ⟨h1, h2⟩ := Ppu.line_sound q u hs hf
      exact ih _ h1 h2 (by rw [Ppu.line_cycle]; omega)
    · rw [if_neg hc]
      exact ⟨hs, hf, by simp only; omega⟩

/-- `ppu.run` keeps the counters in range and the frame buffer's form. -/
theorem Ppu.run_sound (q : Params) (n : Nat) (u : Ppu) (hs : u.scanline < 262) (hf : FrameBuffer.wf u.fb = true) :
    (u.run q n).1.scanline < 262 ∧ FrameBuffer.wf (u.run q n).1.fb = true ∧ (u.run q n).1.cycle < 341 := by
  rw [Ppu.run_eq]
  exact Ppu.lines_sound q ((u.cycle + n) / 341) (u.addCycles n) (by rwa [Ppu.addCycles_scanline])
    (by rwa [Ppu.addCycles_fb]) (by rw [Ppu.addCycles_cycle])

end Sys2Proof.Machine
end

