-- ==== Sys2Proof/Laws/Ops.lean ====
section
/-! SUPPORT. The laws of the Bus, the fetch and the stack: for each operation, once, everything it can do. -/

namespace Sys2Proof.Machine

/-! ### Addresses -/

theorem regionOf_workMemory {a : Addr} (h : a.toNat < 0x2000) : regionOf a = .workMemory := if_pos h

theorem regionOf_videoPorts {a : Addr} (h : 0x2000 ≤ a.toNat) (h' : a.toNat < 0x4000) : regionOf a = .videoPorts := by
  unfold regionOf; rw [if_neg (by omega), if_pos h']

theorem regionOf_expansion {a : Addr} (h : 0x4000 ≤ a.toNat) (h' : a.toNat < 0x8000) : regionOf a = .expansion := by
  unfold regionOf; rw [if_neg (by omega), if_neg (by omega), if_pos h']

theorem regionOf_programRom {a : Addr} (h : 0x8000 ≤ a.toNat) : regionOf a = .programRom := by
  unfold regionOf; rw [if_neg (by omega), if_neg (by omega), if_neg (by omega)]

theorem ramCell_eq (a : Addr) : ramCell a = a.toNat % 0x800 := by
  unfold ramCell; rw [BitVec.toNat_and]; exact Nat.and_two_pow_sub_one_eq_mod a.toNat 11

theorem prgCell_eq (a : Addr) (h : 0x8000 ≤ a.toNat) : prgCell a = (a.toNat - 0x8000) % 0x4000 := by
  have := a.isLt
  unfold prgCell
  rw [toNat_and_mask14, BitVec.toNat_sub, show (0x8000 : Addr).toNat = 0x8000 from rfl]; omega

theorem portOffset_eq (a : Addr) : (a &&& 0x0007).toNat = a.toNat % 8 := by
  rw [BitVec.toNat_and]; exact Nat.and_two_pow_sub_one_eq_mod a.toNat 3

theorem portOf_data_iff (a : Addr) : portOf a = .data ↔ a.toNat % 8 = 7 := by
  have h : a.toNat % 8 < 8 := Nat.mod_lt _ (by decide)
  unfold portOf; rw [portOffset_eq]
  generalize a.toNat % 8 = r at h ⊢
  interval_cases r <;> simp

theorem portOf_address_iff (a : Addr) : portOf a = .address ↔ a.toNat % 8 = 6 := by
  have h : a.toNat % 8 < 8 := Nat.mod_lt _ (by decide)
  unfold portOf; rw [portOffset_eq]
  generalize a.toNat % 8 = r at h ⊢
  interval_cases r <;> simp

theorem word_toNat (hi lo : Byte) : (word hi lo).toNat = 256 * hi.toNat + lo.toNat := toNat_append_bytes hi lo

theorem highByte_toNat (a : Addr) : (highByte a).toNat = a.toNat / 256 := by
  have := a.isLt
  simp [highByte, BitVec.extractLsb'_toNat, Nat.shiftRight_eq_div_pow]; omega

theorem lowByte_toNat (a : Addr) : (lowByte a).toNat = a.toNat % 256 := by
  simp [lowByte, BitVec.extractLsb'_toNat]

/-- An address is its two bytes. -/
theorem word_high_low (a : Addr) : word (highByte a) (lowByte a) = a := by
  apply BitVec.eq_of_toNat_eq
  rw [word_toNat, highByte_toNat, lowByte_toNat]; omega

/-! ### Reads and writes of the Bus -/

/-- Everything a Bus read can do: the byte of its region, and a state change at the data port only. -/
theorem memRead_cases (a : Addr) (s : State) :
    (a.toNat < 0x2000 ∧ memRead a s = (s.ram.read (a.toNat % 0x800), s)) ∨
    (0x2000 ≤ a.toNat ∧ a.toNat < 0x4000 ∧ a.toNat % 8 = 7 ∧ memRead a s = (s.ppu.readBuffer, s.setPpu s.ppu.read.2)) ∨
    (0x2000 ≤ a.toNat ∧ a.toNat < 0x4000 ∧ a.toNat % 8 ≠ 7 ∧ memRead a s = (0, s)) ∨
    (0x4000 ≤ a.toNat ∧ a.toNat < 0x8000 ∧ memRead a s = (0, s)) ∨
    (0x8000 ≤ a.toNat ∧ memRead a s = (s.params.prg.read ((a.toNat - 0x8000) % 0x4000), s)) := by
  by_cases h1 : a.toNat < 0x2000
  · left; refine ⟨h1, ?_⟩
    unfold memRead; rw [regionOf_workMemory h1]; simp only [ramCell_eq]
  by_cases h2 : a.toNat < 0x4000
  · right
    by_cases h7 : a.toNat % 8 = 7
    · left; refine ⟨by omega, h2, h7, ?_⟩
      unfold memRead portRead; rw [regionOf_videoPorts (by omega) h2, (portOf_data_iff a).2 h7]; rfl
    · right; left; refine ⟨by omega, h2, h7, ?_⟩
      have hp : portOf a ≠ .data := fun h => h7 ((portOf_data_iff a).1 h)
      unfold memRead portRead; rw [regionOf_videoPorts (by omega) h2]
      dsimp only
      split
      · rename_i h; exact absurd h hp
      all_goals rfl
  by_cases h3 : a.toNat < 0x8000
  · right; right; right; left; refine ⟨by omega, h3, ?_⟩
    unfold memRead; rw [regionOf_expansion (by omega) h3]
  · right; right; right; right; refine ⟨by omega, ?_⟩
    unfold memRead; rw [regionOf_programRom (by omega)]; simp only [prgCell_eq a (by omega)]

/-- A Bus read leaves the state, or leaves it as one data-port read does. -/
theorem memRead_state (a : Addr) (s : State) :
    (memRead a s).2 = s ∨ (memRead a s).2 = s.setPpu s.ppu.read.2 := by
  rcases memRead_cases a s with h | h | h | h | h
  · left; rw [h.2]
  · right; rw [h.2.2.2]
  · left; rw [h.2.2.2]
  · left; rw [h.2.2]
  · left; rw [h.2]

@[simp] theorem memRead_a (a : Addr) (s : State) : (memRead a s).2.a = s.a := by
  rcases memRead_state a s with h | h <;> rw [h]; rfl
@[simp] theorem memRead_x (a : Addr) (s : State) : (memRead a s).2.x = s.x := by
  rcases memRead_state a s with h | h <;> rw [h]; rfl
@[simp] theorem memRead_y (a : Addr) (s : State) : (memRead a s).2.y = s.y := by
  rcases memRead_state a s with h | h <;> rw [h]; rfl
@[simp] theorem memRead_sp (a : Addr) (s : State) : (memRead a s).2.sp = s.sp := by
  rcases memRead_state a s with h | h <;> rw [h]; rfl
@[simp] theorem memRead_pc (a : Addr) (s : State) : (memRead a s).2.pc = s.pc := by
  rcases memRead_state a s with h | h <;> rw [h]; rfl
@[simp] theorem memRead_p (a : Addr) (s : State) : (memRead a s).2.p = s.p := by
  rcases memRead_state a s with h | h <;> rw [h]; rfl
@[simp] theorem memRead_ram (a : Addr) (s : State) : (memRead a s).2.ram = s.ram := by
  rcases memRead_state a s with h | h <;> rw [h]; rfl
@[simp] theorem memRead_halted (a : Addr) (s : State) : (memRead a s).2.halted = s.halted := by
  rcases memRead_state a s with h | h <;> rw [h]; rfl
@[simp] theorem memRead_params (a : Addr) (s : State) : (memRead a s).2.params = s.params := by
  rcases memRead_state a s with h | h <;> rw [h]; rfl

/-- Everything a Bus write can do. -/
theorem memWrite_cases (a : Addr) (v : Byte) (s : State) :
    (a.toNat < 0x2000 ∧ memWrite a v s = .goesOn (s.setRam (s.ram.write (a.toNat % 0x800) v))) ∨
    (0x2000 ≤ a.toNat ∧ a.toNat < 0x4000 ∧ a.toNat % 8 = 6 ∧ memWrite a v s = .goesOn (s.setPpu (s.ppu.writeAddress v))) ∨
    (0x2000 ≤ a.toNat ∧ a.toNat < 0x4000 ∧ a.toNat % 8 = 7 ∧ memWrite a v s = .goesOn (s.setPpu (s.ppu.writeData v))) ∨
    (0x2000 ≤ a.toNat ∧ a.toNat < 0x4000 ∧ a.toNat % 8 ≠ 6 ∧ a.toNat % 8 ≠ 7 ∧ memWrite a v s = .goesOn s) ∨
    (0x4000 ≤ a.toNat ∧ a.toNat < 0x8000 ∧ memWrite a v s = .goesOn s) ∨
    (0x8000 ≤ a.toNat ∧ memWrite a v s = .halts (s.setHalted (some (.romWrite a v)))) := by
  by_cases h1 : a.toNat < 0x2000
  · left; refine ⟨h1, ?_⟩
    unfold memWrite; rw [regionOf_workMemory h1]; simp only [ramCell_eq]
  by_cases h2 : a.toNat < 0x4000
  · right
    by_cases h6 : a.toNat % 8 = 6
    · left; refine ⟨by omega, h2, h6, ?_⟩
      unfold memWrite portWrite; rw [regionOf_videoPorts (by omega) h2, (portOf_address_iff a).2 h6]
    by_cases h7 : a.toNat % 8 = 7
    · right; left; refine ⟨by omega, h2, h7, ?_⟩
      unfold memWrite portWrite; rw [regionOf_videoPorts (by omega) h2, (portOf_data_iff a).2 h7]
    · right; right; left; refine ⟨by omega, h2, h6, h7, ?_⟩
      have hp : portOf a ≠ .data := fun h => h7 ((portOf_data_iff a).1 h)
      have hq : portOf a ≠ .address := fun h => h6 ((portOf_address_iff a).1 h)
      unfold memWrite portWrite; rw [regionOf_videoPorts (by omega) h2]
      dsimp only
      split
      · rename_i h; exact absurd h hq
      · rename_i h; exact absurd h hp
      all_goals rfl
  by_cases h3 : a.toNat < 0x8000
  · right; right; right; right; left; refine ⟨by omega, h3, ?_⟩
    unfold memWrite; rw [regionOf_expansion (by omega) h3]
  · right; right; right; right; right; refine ⟨by omega, ?_⟩
    unfold memWrite raiseFatal; rw [regionOf_programRom (by omega)]

/-- A read of work memory changes nothing. -/
theorem memRead_workMemory {a : Addr} (h : a.toNat < 0x2000) (s : State) :
    memRead a s = (s.ram.read (a.toNat % 0x800), s) := by
  rcases memRead_cases a s with h' | h' | h' | h' | h' <;> first | exact h'.2 | omega

/-- A write of work memory always goes on. -/
theorem memWrite_workMemory {a : Addr} (h : a.toNat < 0x2000) (v : Byte) (s : State) :
    memWrite a v s = .goesOn (s.setRam (s.ram.write (a.toNat % 0x800) v)) := by
  rcases memWrite_cases a v s with h' | h' | h' | h' | h' | h' <;> first | exact h'.2 | omega

/-! ### Flow -/

@[simp] theorem Flow.andThen_goesOn (s : State) (k : State → Flow) : (Flow.goesOn s).andThen k = k s := rfl
@[simp] theorem Flow.andThen_halts (s : State) (k : State → Flow) : (Flow.halts s).andThen k = .halts s := rfl
@[simp] theorem Flow.outcome_goesOn (s : State) : (Flow.goesOn s).outcome = .next s := rfl
@[simp] theorem Flow.outcome_halts (s : State) : (Flow.halts s).outcome = .next s := rfl
@[simp] theorem Flow.state_goesOn (s : State) : (Flow.goesOn s).state = s := rfl
@[simp] theorem Flow.state_halts (s : State) : (Flow.halts s).state = s := rfl

/-! ### Fetch -/

/-- A fetch moves PC by one, and changes nothing else but at the data port. -/
theorem fetch_state (s : State) :
    (fetch s).2 = s.setPC (s.pc + 1) ∨ (fetch s).2 = (s.setPpu s.ppu.read.2).setPC (s.pc + 1) := by
  unfold fetch
  rcases memRead_state s.pc s with h | h
  · left; dsimp only; rw [h]
  · right; dsimp only; rw [h]; rfl

/-- The states a fetch of one to three bytes can leave: PC moved on, and so many data-port reads done. -/
inductive Fetched : State → State → Prop
  | none (s : State) : Fetched s s
  | more (s t : State) (h : Fetched s t) : Fetched s (fetch t).2

/-- `fetchInstr` does nothing but fetch. -/
theorem fetchInstr_fetched (s : State) : Fetched s (fetchInstr s).2 := by
  have h1 := Fetched.more s s (.none s)
  unfold fetchInstr
  dsimp only
  split
  · exact h1
  · split
    · exact h1
    · exact .more _ _ h1
    · exact .more _ _ (.more _ _ h1)

/-- What any number of fetches leaves unchanged: everything but PC, the latch and the read buffer. -/
theorem Fetched.frame {s t : State} (h : Fetched s t) :
    t.a = s.a ∧ t.x = s.x ∧ t.y = s.y ∧ t.sp = s.sp ∧ t.p = s.p ∧ t.ram = s.ram ∧ t.halted = s.halted ∧
    t.params = s.params ∧ t.ppu.vram = s.ppu.vram ∧ t.ppu.toggle = s.ppu.toggle ∧ t.ppu.cycle = s.ppu.cycle ∧
    t.ppu.scanline = s.ppu.scanline ∧ t.ppu.fb = s.ppu.fb ∧
    (t.ppu = s.ppu ∨ t.ppu.latchHi.toNat ≤ 0x3F) := by
  induction h with
  | none => simp
  | more t _ ih =>
    obtain ⟨h1, h2, h3, h4, h5, h6, h7, h8, h9, h10, h11, h12, h13, h14⟩ := ih
    rcases fetch_state t with h | h <;> rw [h]
    · exact ⟨h1, h2, h3, h4, h5, h6, h7, h8, h9, h10, h11, h12, h13, h14⟩
    · exact ⟨h1, h2, h3, h4, h5, h6, h7, h8, h9, h10, h11, h12, h13, .inr (Ppu.read_latchHi_le _)⟩

/-! ### The stack -/

theorem stackAddr_toNat (s : State) : (stackAddr s).toNat = 0x100 + s.sp.toNat := by
  have := s.sp.isLt
  unfold stackAddr
  rw [BitVec.toNat_add, BitVec.toNat_setWidth, show Config.stackBase.toNat = 0x100 from rfl]; omega

theorem stackAddr_cell (s : State) : (stackAddr s).toNat % 0x800 = 0x100 + s.sp.toNat := by
  have := s.sp.isLt
  rw [stackAddr_toNat]; omega

/-- A push always lands in work memory. -/
theorem push_eq (v : Byte) (s : State) :
    push v s = .goesOn ((s.setRam (s.ram.write (0x100 + s.sp.toNat) v)).setSP (s.sp + 1)) := by
  have := s.sp.isLt
  unfold push
  rw [memWrite_workMemory (by rw [stackAddr_toNat]; omega), stackAddr_cell]; rfl

/-- A pop always reads work memory. -/
theorem pop_eq (s : State) :
    pop s = (s.ram.read (0x100 + (s.sp - 1).toNat), s.setSP (s.sp - 1)) := by
  have := (s.sp - 1).isLt
  unfold pop
  dsimp only
  rw [memRead_workMemory (by rw [stackAddr_toNat]; simp only [State.setSP_sp]; omega), stackAddr_cell]; rfl

/-! ### Operands -/

theorem eaZeroPage_toNat (d8 : Byte) : (eaZeroPage d8).toNat = d8.toNat := by
  have := d8.isLt
  simp only [eaZeroPage, BitVec.toNat_setWidth]; omega

theorem eaZeroPageX_toNat (d8 : Byte) (s : State) : (eaZeroPageX d8 s).toNat = (d8.toNat + s.x.toNat) % 256 := by
  simp only [eaZeroPageX, BitVec.toNat_setWidth, BitVec.toNat_add]; omega

theorem eaAbsolute_toNat (lo8 hi8 : Byte) : (eaAbsolute lo8 hi8).toNat = 256 * hi8.toNat + lo8.toNat :=
  word_toNat hi8 lo8

theorem eaAbsoluteX_toNat (lo8 hi8 : Byte) (s : State) :
    (eaAbsoluteX lo8 hi8 s).toNat = (256 * hi8.toNat + lo8.toNat + s.x.toNat) % 65536 := by
  have := s.x.isLt
  simp only [eaAbsoluteX, BitVec.toNat_setWidth, BitVec.toNat_add, word_toNat]; omega

theorem branchTarget_toNat (rel8 : Byte) (s : State) :
    ((branchTarget rel8 s).toNat : Int) = ((s.pc.toNat : Int) + rel8.toInt) % 65536 := by
  have h : (rel8.signExtend 16).toInt = rel8.toInt := BitVec.toInt_signExtend_of_le (by decide)
  unfold branchTarget
  rw [BitVec.toNat_add, ← h, BitVec.toInt_eq_toNat_cond]
  split <;> omega

end Sys2Proof.Machine
end

