-- ==== Sys2Proof/Laws/PerInstr.lean ====
section
/-! SUPPORT. Statements made per instruction. `RoundTrip`: the bytes of an instruction, followed by anything, decode to it and leave the rest. -/

namespace Sys2Proof.Laws

/-- Decoding an instruction's encoding gives the instruction back, whatever follows it (spec/30_encoding.md R90, R97). -/
def RoundTrip.Statement (i : Instr) : Prop := ∀ rest : List Byte, decode (encode i ++ rest) = .ok (i, rest)

theorem RoundTrip.ldaImm (b : Byte) : RoundTrip.Statement (.ldaImm b) := fun _ => rfl
theorem RoundTrip.ldaZp (b : Byte) : RoundTrip.Statement (.ldaZp b) := fun _ => rfl
theorem RoundTrip.ldaZpX (b : Byte) : RoundTrip.Statement (.ldaZpX b) := fun _ => rfl
theorem RoundTrip.ldaAbs (lo hi : Byte) : RoundTrip.Statement (.ldaAbs lo hi) := fun _ => rfl
theorem RoundTrip.ldaAbsX (lo hi : Byte) : RoundTrip.Statement (.ldaAbsX lo hi) := fun _ => rfl
theorem RoundTrip.ldxImm (b : Byte) : RoundTrip.Statement (.ldxImm b) := fun _ => rfl
theorem RoundTrip.ldxZp (b : Byte) : RoundTrip.Statement (.ldxZp b) := fun _ => rfl
theorem RoundTrip.ldxAbs (lo hi : Byte) : RoundTrip.Statement (.ldxAbs lo hi) := fun _ => rfl
theorem RoundTrip.ldyImm (b : Byte) : RoundTrip.Statement (.ldyImm b) := fun _ => rfl
theorem RoundTrip.ldyZp (b : Byte) : RoundTrip.Statement (.ldyZp b) := fun _ => rfl
theorem RoundTrip.ldyZpX (b : Byte) : RoundTrip.Statement (.ldyZpX b) := fun _ => rfl
theorem RoundTrip.ldyAbs (lo hi : Byte) : RoundTrip.Statement (.ldyAbs lo hi) := fun _ => rfl
theorem RoundTrip.ldyAbsX (lo hi : Byte) : RoundTrip.Statement (.ldyAbsX lo hi) := fun _ => rfl
theorem RoundTrip.staZp (b : Byte) : RoundTrip.Statement (.staZp b) := fun _ => rfl
theorem RoundTrip.staZpX (b : Byte) : RoundTrip.Statement (.staZpX b) := fun _ => rfl
theorem RoundTrip.staAbs (lo hi : Byte) : RoundTrip.Statement (.staAbs lo hi) := fun _ => rfl
theorem RoundTrip.staAbsX (lo hi : Byte) : RoundTrip.Statement (.staAbsX lo hi) := fun _ => rfl
theorem RoundTrip.stxZp (b : Byte) : RoundTrip.Statement (.stxZp b) := fun _ => rfl
theorem RoundTrip.stxAbs (lo hi : Byte) : RoundTrip.Statement (.stxAbs lo hi) := fun _ => rfl
theorem RoundTrip.styZp (b : Byte) : RoundTrip.Statement (.styZp b) := fun _ => rfl
theorem RoundTrip.styZpX (b : Byte) : RoundTrip.Statement (.styZpX b) := fun _ => rfl
theorem RoundTrip.styAbs (lo hi : Byte) : RoundTrip.Statement (.styAbs lo hi) := fun _ => rfl
theorem RoundTrip.jsr (lo hi : Byte) : RoundTrip.Statement (.jsr lo hi) := fun _ => rfl
theorem RoundTrip.rts : RoundTrip.Statement .rts := fun _ => rfl
theorem RoundTrip.bpl (b : Byte) : RoundTrip.Statement (.bpl b) := fun _ => rfl
theorem RoundTrip.bmi (b : Byte) : RoundTrip.Statement (.bmi b) := fun _ => rfl
theorem RoundTrip.bvc (b : Byte) : RoundTrip.Statement (.bvc b) := fun _ => rfl
theorem RoundTrip.bvs (b : Byte) : RoundTrip.Statement (.bvs b) := fun _ => rfl
theorem RoundTrip.bcc (b : Byte) : RoundTrip.Statement (.bcc b) := fun _ => rfl
theorem RoundTrip.bcs (b : Byte) : RoundTrip.Statement (.bcs b) := fun _ => rfl
theorem RoundTrip.bne (b : Byte) : RoundTrip.Statement (.bne b) := fun _ => rfl
theorem RoundTrip.beq (b : Byte) : RoundTrip.Statement (.beq b) := fun _ => rfl
theorem RoundTrip.jmp (lo hi : Byte) : RoundTrip.Statement (.jmp lo hi) := fun _ => rfl
theorem RoundTrip.incZp (b : Byte) : RoundTrip.Statement (.incZp b) := fun _ => rfl
theorem RoundTrip.incZpX (b : Byte) : RoundTrip.Statement (.incZpX b) := fun _ => rfl
theorem RoundTrip.incAbs (lo hi : Byte) : RoundTrip.Statement (.incAbs lo hi) := fun _ => rfl
theorem RoundTrip.incAbsX (lo hi : Byte) : RoundTrip.Statement (.incAbsX lo hi) := fun _ => rfl
theorem RoundTrip.decZp (b : Byte) : RoundTrip.Statement (.decZp b) := fun _ => rfl
theorem RoundTrip.decZpX (b : Byte) : RoundTrip.Statement (.decZpX b) := fun _ => rfl
theorem RoundTrip.decAbs (lo hi : Byte) : RoundTrip.Statement (.decAbs lo hi) := fun _ => rfl
theorem RoundTrip.decAbsX (lo hi : Byte) : RoundTrip.Statement (.decAbsX lo hi) := fun _ => rfl
theorem RoundTrip.inx : RoundTrip.Statement .inx := fun _ => rfl
theorem RoundTrip.iny : RoundTrip.Statement .iny := fun _ => rfl
theorem RoundTrip.dex : RoundTrip.Statement .dex := fun _ => rfl
theorem RoundTrip.dey : RoundTrip.Statement .dey := fun _ => rfl
theorem RoundTrip.sei : RoundTrip.Statement .sei := fun _ => rfl

end Sys2Proof.Laws
end

