-- ==== Sys2Proof/Laws/Step.lean ====
section
/-! SUPPORT. What an instruction and a step can do, said once: `Touches s t` lists the operations that lead from `s` to `t`. Every instruction and every step touches, so a rule about the whole machine is one induction on `Touches`, with one case per operation. -/

namespace Sys2Proof.Machine

/-- `t` comes from `s` by the machine's operations, each used any number of times. -/
inductive Touches (s : State) : State → Prop
  /-- Nothing has been done. -/
  | start : Touches s s
  /-- A Bus read (R52). -/
  | reads {t : State} (h : Touches s t) (a : Addr) : Touches s (memRead a t).2
  /-- A Bus write that goes on (R59). -/
  | writes {t u : State} (h : Touches s t) (a : Addr) (v : Byte) (hw : memWrite a v t = .goesOn u) : Touches s u
  /-- A Bus write that is fatal (R62). -/
  | romWrite {t u : State} (h : Touches s t) (a : Addr) (v : Byte) (hw : memWrite a v t = .halts u) : Touches s u
  /-- A general register takes a byte. -/
  | register {t : State} (h : Touches s t) (r : Reg) (v : Byte) : Touches s (t.setReg r v)
  /-- SP takes a byte. -/
  | stackPointer {t : State} (h : Touches s t) (v : Byte) : Touches s (t.setSP v)
  /-- PC takes an address. -/
  | counter {t : State} (h : Touches s t) (v : Addr) : Touches s (t.setPC v)
  /-- The flag rule (R120). -/
  | flags {t : State} (h : Touches s t) (v : Byte) : Touches s (setNZ v t)
  /-- SEI's flag write (R210). -/
  | disables {t : State} (h : Touches s t) : Touches s (setIRQDisable t)

namespace Touches

theorem loads {s t : State} (h : Touches s t) (r : Reg) (v : Byte) : Touches s (loadValue r v t) :=
  (h.register r v).flags v

/-- A write is one of the two write cases, whichever its flow. -/
theorem memWrites {s t : State} (h : Touches s t) (a : Addr) (v : Byte) : Touches s (memWrite a v t).state := by
  cases hw : memWrite a v t with
  | goesOn u => exact h.writes a v hw
  | halts u => exact h.romWrite a v hw

theorem modifies {s t : State} (h : Touches s t) (f : Byte → Byte) (ea : Addr) :
    Touches s (modifyMemory f ea t).state := by
  unfold modifyMemory
  dsimp only
  cases hw : memWrite ea (f (memRead ea t).1) (memRead ea t).2 with
  | goesOn u => exact ((h.reads ea).writes ea _ hw).flags _
  | halts u => exact (h.reads ea).romWrite ea _ hw

theorem pushes {s t : State} (h : Touches s t) (v : Byte) : Touches s (push v t).state := by
  unfold push
  cases hw : memWrite (stackAddr t) v t with
  | goesOn u => exact (h.writes _ v hw).stackPointer _
  | halts u => exact h.romWrite _ v hw

theorem pops {s t : State} (h : Touches s t) : Touches s (pop t).2 := (h.stackPointer _).reads _

theorem calls {s t : State} (h : Touches s t) (target : Addr) : Touches s (callTo target t).state := by
  have h1 := h.pushes (highByte t.pc)
  unfold callTo
  dsimp only
  cases hp : push (highByte t.pc) t with
  | halts u => rw [hp] at h1; exact h1
  | goesOn u =>
    rw [hp] at h1
    have h2 := Touches.pushes (t := u) h1 (lowByte t.pc)
    rw [Flow.andThen_goesOn]
    cases hq : push (lowByte t.pc) u with
    | halts w => rw [hq] at h2; exact h2
    | goesOn w => rw [hq] at h2; exact Touches.counter (t := w) h2 target

theorem branches {s t : State} (h : Touches s t) (f : Flag) (b : Bool) (r : Byte) :
    Touches s (branchWhen f b r t) := by
  unfold branchWhen; split
  · exact h.counter _
  · exact h

theorem fetches {s t : State} (h : Touches s t) : Touches s (fetch t).2 := (h.reads _).counter _

theorem fetchesInstr {s t : State} (h : Touches s t) : Touches s (fetchInstr t).2 := by
  unfold fetchInstr
  dsimp only
  split
  · exact h.fetches
  · split
    · exact h.fetches
    · exact h.fetches.fetches
    · exact h.fetches.fetches.fetches

theorem trans {s t u : State} (h : Touches s t) (h' : Touches t u) : Touches s u := by
  induction h' with
  | start => exact h
  | reads _ a ih => exact ih.reads a
  | writes _ a v hw ih => exact ih.writes a v hw
  | romWrite _ a v hw ih => exact ih.romWrite a v hw
  | register _ r v ih => exact ih.register r v
  | stackPointer _ v ih => exact ih.stackPointer v
  | counter _ v ih => exact ih.counter v
  | flags _ v ih => exact ih.flags v
  | disables _ ih => exact ih.disables

end Touches

/-- The state an instruction leaves. -/
def effect (i : Instr) (s : State) : State :=
  match exec i s with
  | .next t => t
  | .fault _ => s
  | .refused _ => s

/-- Every instruction answers a next state. -/
theorem exec_eq_effect (i : Instr) (s : State) : exec i s = .next (effect i s) := by
  cases i <;> rfl

theorem effect_of_exec {i : Instr} {s t : State} (h : exec i s = .next t) : effect i s = t := by
  rw [exec_eq_effect] at h; exact Host.Outcome.next.inj h

/-- Every instruction touches. -/
theorem effect_touches (i : Instr) (s : State) : Touches s (effect i s) := by
  cases i
  case ldaImm | ldxImm | ldyImm => exact Touches.start.loads _ _
  case ldaZp | ldaZpX | ldaAbs | ldaAbsX | ldxZp | ldxAbs | ldyZp | ldyZpX | ldyAbs | ldyAbsX =>
    exact (Touches.start.reads _).loads _ _
  case staZp | staZpX | staAbs | staAbsX | stxZp | stxAbs | styZp | styZpX | styAbs =>
    exact Touches.start.memWrites _ _
  case jsr => exact Touches.start.calls _
  case rts => exact Touches.start.pops.pops.counter _
  case bpl | bmi | bvc | bvs | bcc | bcs | bne | beq => exact Touches.start.branches _ _ _
  case jmp => exact Touches.start.counter _
  case incZp | incZpX | incAbs | incAbsX | decZp | decZpX | decAbs | decAbsX =>
    exact Touches.start.modifies _ _
  case inx | iny | dex | dey => exact (Touches.start.register _ _).flags _
  case sei => exact Touches.start.disables

/-- Everything a step can do from a running state: fetch an opcode byte without a row and halt, or fetch an instruction, run it, and advance the VideoUnit unless it halted. -/
theorem step_cases {s t : State} (h : step s = .next t) :
    s.halted = none ∧
    ((∃ op u, fetchInstr s = (.error op, u) ∧ t = u.setHalted (some (.unimplementedOpcode op s.pc))) ∨
     (∃ i u, fetchInstr s = (.ok i, u) ∧ (effect i u).halted ≠ none ∧ t = effect i u) ∨
     (∃ i u, fetchInstr s = (.ok i, u) ∧ (effect i u).halted = none ∧
        t = (effect i u).setPpu ((effect i u).ppu.run (effect i u).params (3 * i.cost)).1)) := by
  unfold step systemStep at h
  cases hh : s.halted with
  | some c => rw [hh] at h; cases h
  | none =>
    rw [hh] at h
    refine ⟨rfl, ?_⟩
    rcases hf : fetchInstr s with ⟨r, u⟩
    rw [hf] at h
    cases r with
    | error op => exact .inl ⟨op, u, rfl, (Host.Outcome.next.inj h).symm⟩
    | ok i =>
      right
      dsimp only at h
      unfold runInstr at h
      rw [exec_eq_effect] at h
      dsimp only [stateOnly] at h
      have ht := Host.Outcome.next.inj h
      unfold advanceVideo at ht
      cases he : (effect i u).halted with
      | some c => rw [he] at ht; exact .inl ⟨i, u, rfl, by simp [he], ht.symm⟩
      | none => rw [he] at ht; exact .inr ⟨i, u, rfl, he, ht.symm⟩

end Sys2Proof.Machine
end

