-- ==== Sys2Proof/Tests/Slice0.lean ====
section
/-! SUPPORT. The model's own tests. Expected results are the spec's: the encodings of spec/30_encoding.md R91 and R97, the vectors V1 to V107 of spec/95_test_vectors.md (each named in its docstring), and the reset values the log names. Then, for every obligation with hypotheses, a witness that meets them. -/

namespace Sys2Proof.Tests

open Sys2Proof Sys2Proof.Machine

/-! ### Well-formed terms

R100: every operand byte value is legal in every admitted instruction, so `Instr.wf` accepts every term and there is no ill-formed term to refuse. -/

theorem test_wf_accepts_extreme_operands :
    Instr.wf (.ldaImm 0xFF) = true ∧ Instr.wf (.bne 0x80) = true ∧ Instr.wf (.jmp 0xFF 0xFF) = true ∧
      Instr.wf (.staAbsX 0x00 0x80) = true := by decide

/-! ### Decoding: words written out from the encodings of R97, one for every constructor -/

/-- R140 to R152. The first word is written bit by bit: 0xA9 is 1010 1001. -/
theorem test_decode_loads :
    decodeTableWord 16 0b0000010110101001 = some (.ldaImm 0x05) ∧
    decodeTableWord 16 0x10A5 = some (.ldaZp 0x10) ∧ decodeTableWord 16 0x20B5 = some (.ldaZpX 0x20) ∧
    decodeTableWord 24 0x1234AD = some (.ldaAbs 0x34 0x12) ∧ decodeTableWord 24 0xFFEEBD = some (.ldaAbsX 0xEE 0xFF) ∧
    decodeTableWord 16 0x80A2 = some (.ldxImm 0x80) ∧ decodeTableWord 16 0x10A6 = some (.ldxZp 0x10) ∧
    decodeTableWord 24 0x0200AE = some (.ldxAbs 0x00 0x02) ∧ decodeTableWord 16 0xFFA0 = some (.ldyImm 0xFF) ∧
    decodeTableWord 16 0x01A4 = some (.ldyZp 0x01) ∧ decodeTableWord 16 0xFFB4 = some (.ldyZpX 0xFF) ∧
    decodeTableWord 24 0x0810AC = some (.ldyAbs 0x10 0x08) ∧ decodeTableWord 24 0x8000BC = some (.ldyAbsX 0x00 0x80) := by
  decide

/-- R153 to R161. 0x8D is 1000 1101: STA Absolute of 0x0010. -/
theorem test_decode_stores :
    decodeTableWord 24 0b000000000001000010001101 = some (.staAbs 0x10 0x00) ∧
    decodeTableWord 16 0x1085 = some (.staZp 0x10) ∧ decodeTableWord 16 0xFF95 = some (.staZpX 0xFF) ∧
    decodeTableWord 24 0x07FF9D = some (.staAbsX 0xFF 0x07) ∧ decodeTableWord 16 0x1086 = some (.stxZp 0x10) ∧
    decodeTableWord 24 0x18008E = some (.stxAbs 0x00 0x18) ∧ decodeTableWord 16 0x2084 = some (.styZp 0x20) ∧
    decodeTableWord 16 0x2094 = some (.styZpX 0x20) ∧ decodeTableWord 24 0x1FFF8C = some (.styAbs 0xFF 0x1F) := by
  decide

/-- R170 to R181. 0xD0 is 1101 0000: BNE -3, displacement 1111 1101. -/
theorem test_decode_control :
    decodeTableWord 16 0b1111110111010000 = some (.bne 0xFD) ∧
    decodeTableWord 24 0x800620 = some (.jsr 0x06 0x80) ∧ decodeTableWord 8 0x60 = some .rts ∧
    decodeTableWord 16 0x0210 = some (.bpl 0x02) ∧ decodeTableWord 16 0x0230 = some (.bmi 0x02) ∧
    decodeTableWord 16 0x0250 = some (.bvc 0x02) ∧ decodeTableWord 16 0x0270 = some (.bvs 0x02) ∧
    decodeTableWord 16 0x0290 = some (.bcc 0x02) ∧ decodeTableWord 16 0x02B0 = some (.bcs 0x02) ∧
    decodeTableWord 16 0x7FF0 = some (.beq 0x7F) ∧ decodeTableWord 24 0x12344C = some (.jmp 0x34 0x12) := by
  decide

/-- R190 to R201. 0xE8 is 1110 1000: INX. -/
theorem test_decode_inc_dec :
    decodeTableWord 8 0b11101000 = some .inx ∧
    decodeTableWord 16 0x10E6 = some (.incZp 0x10) ∧ decodeTableWord 16 0xF0F6 = some (.incZpX 0xF0) ∧
    decodeTableWord 24 0x1010EE = some (.incAbs 0x10 0x10) ∧ decodeTableWord 24 0x0700FE = some (.incAbsX 0x00 0x07) ∧
    decodeTableWord 16 0x10C6 = some (.decZp 0x10) ∧ decodeTableWord 16 0x00D6 = some (.decZpX 0x00) ∧
    decodeTableWord 24 0x0200CE = some (.decAbs 0x00 0x02) ∧ decodeTableWord 24 0x0201DE = some (.decAbsX 0x01 0x02) ∧
    decodeTableWord 8 0xC8 = some .iny ∧ decodeTableWord 8 0xCA = some .dex ∧ decodeTableWord 8 0x88 = some .dey := by
  decide

/-- R210 and R99: 0x78 is 0111 1000, SEI; 0xEA, 0x00 and 0x6C have no row. -/
theorem test_decode_system_and_refusals :
    decodeTableWord 8 0b01111000 = some .sei ∧ decodeTableWord 8 0xEA = none ∧ decodeTableWord 8 0x00 = none ∧
      decodeTableWord 24 0x12346C = none := by
  decide

/-- R97: the declared costs at the ends of the range, and the two that differ between forms. -/
theorem test_costs :
    Instr.cost (.ldaImm 0) = 2 ∧ Instr.cost (.ldaAbsX 0 0) = 4 ∧ Instr.cost (.staAbsX 0 0) = 5 ∧
      Instr.cost (.incAbsX 0 0) = 7 ∧ Instr.cost (.jsr 0 0) = 6 ∧ Instr.cost (.bne 0) = 2 := by
  decide

/-- R101, R102: assembler text of the source's sample program. -/
theorem test_text :
    Instr.text (.ldaImm 0x05) = "LDA #$05" ∧ Instr.text (.staAbs 0x10 0x00) = "STA $0010" ∧
      Instr.text (.bne 0xFD) = "BNE -3" ∧ Instr.text .sei = "SEI" := by
  decide

/-! ### One step -/

/-- What one step leaves, seen through `f`; none when the step stops. -/
def stepped {α : Type} (s : State) (f : State → α) : Option α :=
  match step s with
  | .next t => some (f t)
  | .fault _ => none
  | .refused _ => none

/-- What one step of the bytes placed at PC leaves, seen through `f`. -/
def after {α : Type} (bytes : List Byte) (s : State) (f : State → α) : Option α := stepped (readyToRun bytes s) f

/-- V1, V5. -/
theorem test_lda_imm :
    after [0xA9, 0x00] { State.reset with p := 0x80 } (fun t => (t.a, t.p, t.pc)) = some (0x00, 0x02, 0x8002) ∧
    after [0xA9, 0x05] { State.reset with p := 0xFF } (fun t => (t.a, t.p)) = some (0x05, 0x7D) := by decide
/-- V6. -/
theorem test_lda_zp :
    after [0xA5, 0x10] { State.reset with ram := [(0x10, 0x80)] } (fun t => (t.a, t.p, t.pc)) = some (0x80, 0x80, 0x8002) := by decide
/-- V7: page-zero wrap. -/
theorem test_lda_zpx :
    after [0xB5, 0xF0] { State.reset with x := 0x20, ram := [(0x10, 0x42), (0x110, 0x99)] } (fun t => (t.a, t.p)) = some (0x42, 0x00) := by decide
/-- V8 (mirror), V11 (ROM mirror), V12 (unmapped). -/
theorem test_lda_abs :
    after [0xAD, 0x10, 0x18] { State.reset with ram := [(0x10, 0x37)] } (fun t => (t.a, t.pc)) = some (0x37, 0x8003) ∧
    after [0xAD, 0x00, 0xC0] State.reset (fun t => (t.a, t.p)) = some (0xAD, 0x80) ∧
    after [0xAD, 0x00, 0x50] { State.reset with a := 0x55, p := 0x80 } (fun t => (t.a, t.p)) = some (0x00, 0x02) := by decide
/-- V9, V10: carry into the high byte, 16-bit wrap. -/
theorem test_lda_absx :
    after [0xBD, 0xFF, 0x00] { State.reset with x := 1, ram := [(0x100, 0x5A)] } (fun t => t.a) = some 0x5A ∧
    after [0xBD, 0xF0, 0xFF] { State.reset with x := 0x20, ram := [(0x10, 0x66)] } (fun t => t.a) = some 0x66 := by decide
/-- V15, V16, V17. -/
theorem test_ldx :
    after [0xA2, 0x80] State.reset (fun t => (t.x, t.p)) = some (0x80, 0x80) ∧
    after [0xA6, 0x10] { State.reset with x := 0x33 } (fun t => (t.x, t.p)) = some (0x00, 0x02) ∧
    after [0xAE, 0x00, 0x02] { State.reset with ram := [(0x200, 0x7F)] } (fun t => (t.x, t.p)) = some (0x7F, 0x00) := by decide
/-- V18 to V22. -/
theorem test_ldy :
    after [0xA0, 0xFF] State.reset (fun t => (t.y, t.p)) = some (0xFF, 0x80) ∧
    after [0xA4, 0xFF] { State.reset with ram := [(0xFF, 0x01)] } (fun t => t.y) = some 0x01 ∧
    after [0xB4, 0xFF] { State.reset with x := 2, ram := [(0x01, 0x81)] } (fun t => (t.y, t.p)) = some (0x81, 0x80) ∧
    after [0xAC, 0x10, 0x08] { State.reset with ram := [(0x10, 0x80)] } (fun t => t.y) = some 0x80 ∧
    after [0xBC, 0x00, 0x80] { State.reset with x := 1, y := 9 } (fun t => (t.y, t.p)) = some (0x00, 0x02) := by decide

/-- V30 (no flag written), V31 (page-zero wrap), V32 (mirror). -/
theorem test_sta :
    after [0x85, 0x10] { State.reset with a := 0x80, p := 0x02 } (fun t => (t.ram, t.p, t.pc)) = some ([(0x10, 0x80)], 0x02, 0x8002) ∧
    after [0x95, 0xFF] { State.reset with a := 0x12, x := 2 } (fun t => t.ram) = some [(0x01, 0x12)] ∧
    after [0x8D, 0x10, 0x08] { State.reset with a := 0x34 } (fun t => t.ram) = some [(0x10, 0x34)] := by decide
/-- V34 (the address wraps to 0: no RomWrite), V35 (data port), V38 (RomWrite; PC past the instruction). -/
theorem test_sta_absx_and_rom :
    after [0x9D, 0xFF, 0xFF] { State.reset with a := 0x9C, x := 1 } (fun t => (t.ram, t.halted)) = some ([(0, 0x9C)], none) ∧
    after [0x9D, 0xF8, 0x1F] { State.reset with a := 0x56, x := 0x0F } (fun t => (t.ppu.vram, t.ppu.cur)) = some ([(0, 0x56)], 0x0001) ∧
    after [0x8D, 0x00, 0x80] { State.reset with a := 1 } (fun t => (t.halted, t.pc, t.ppu.cycle)) = some (some (.romWrite 0x8000 0x01), 0x8003, 0) := by decide
/-- V39 to V43. -/
theorem test_stx_sty :
    after [0x86, 0x10] { State.reset with x := 0x77 } (fun t => t.ram) = some [(0x10, 0x77)] ∧
    after [0x8E, 0x00, 0x18] { State.reset with x := 0x78 } (fun t => t.ram) = some [(0x00, 0x78)] ∧
    after [0x84, 0x20] { State.reset with y := 0x79 } (fun t => t.ram) = some [(0x20, 0x79)] ∧
    after [0x94, 0x20] { State.reset with y := 0x7A, x := 0xE0 } (fun t => t.ram) = some [(0x00, 0x7A)] ∧
    after [0x8C, 0xFF, 0x1F] { State.reset with y := 0x7B } (fun t => t.ram) = some [(0x7FF, 0x7B)] := by decide

/-- V50, V55, V56, V57. -/
theorem test_inc :
    after [0xE6, 0x10] { State.reset with ram := [(0x10, 0xFF)], p := 0x81 } (fun t => (t.ram, t.p)) = some ([], 0x03) ∧
    after [0xF6, 0xF0] { State.reset with x := 0x20, ram := [(0x10, 0x0F)] } (fun t => t.ram) = some [(0x10, 0x10)] ∧
    after [0xEE, 0x10, 0x10] { State.reset with ram := [(0x10, 0x0F)] } (fun t => t.ram) = some [(0x10, 0x10)] ∧
    after [0xFE, 0x00, 0x07] { State.reset with x := 0xFF, ram := [(0x7FF, 0xFE)] } (fun t => (t.ram, t.p)) = some ([(0x7FF, 0xFF)], 0x80) := by decide
/-- V62 (the stale buffer), V63 (the read happens, the write halts, the flags are as before). -/
theorem test_inc_port_and_rom :
    after [0xEE, 0x07, 0x20] { State.reset with ppu := { State.reset.ppu with readBuffer := 0x41, vram := [(0, 0x99)] } }
      (fun t => (t.ppu.readBuffer, t.ppu.vram, t.ppu.cur, t.p)) = some (0x99, [(0, 0x99), (1, 0x42)], 2, 0x00) ∧
    after [0xEE, 0x00, 0x80] State.reset (fun t => (t.halted, t.pc, t.p)) = some (some (.romWrite 0x8000 0xEF), 0x8003, 0x00) := by decide
/-- V52, V58, V59, V60. -/
theorem test_dec :
    after [0xC6, 0x10] { State.reset with p := 0x03 } (fun t => (t.ram, t.p)) = some ([(0x10, 0xFF)], 0x81) ∧
    after [0xD6, 0x00] { State.reset with x := 0xFF, ram := [(0xFF, 0x10)] } (fun t => t.ram) = some [(0xFF, 0x0F)] ∧
    after [0xCE, 0x00, 0x02] State.reset (fun t => (t.ram, t.p)) = some ([(0x200, 0xFF)], 0x80) ∧
    after [0xDE, 0x01, 0x02] { State.reset with x := 0xFF, ram := [(0x300, 0x81)] } (fun t => (t.ram, t.p)) = some ([(0x300, 0x80)], 0x80) := by decide
/-- V64, V66, V67, V69. -/
theorem test_index_steps :
    after [0xE8] { State.reset with x := 0xFF, p := 0x81 } (fun t => (t.x, t.p, t.pc)) = some (0x00, 0x03, 0x8001) ∧
    after [0xC8] { State.reset with y := 0xFE } (fun t => (t.y, t.p)) = some (0xFF, 0x80) ∧
    after [0xCA] { State.reset with p := 0x03 } (fun t => (t.x, t.p)) = some (0xFF, 0x81) ∧
    after [0x88] { State.reset with y := 0x80, p := 0x80 } (fun t => (t.y, t.p)) = some (0x7F, 0x00) := by decide

/-- V71 to V74: BNE and BEQ at the ends of the displacement. -/
theorem test_bne_beq :
    after [0xD0, 0xFD] State.reset (fun t => t.pc) = some 0x7FFF ∧
    after [0xD0, 0xFD] { State.reset with p := 0x02 } (fun t => t.pc) = some 0x8002 ∧
    after [0xF0, 0x7F] { State.reset with p := 0x02 } (fun t => t.pc) = some 0x8081 ∧
    after [0xF0, 0x80] { State.reset with p := 0x02 } (fun t => t.pc) = some 0x7F82 := by decide
/-- V77, V78: BPL and BMI. -/
theorem test_bpl_bmi :
    after [0x10, 0x02] State.reset (fun t => t.pc) = some 0x8004 ∧
    after [0x10, 0x02] { State.reset with p := 0x80 } (fun t => t.pc) = some 0x8002 ∧
    after [0x30, 0x02] { State.reset with p := 0x80 } (fun t => t.pc) = some 0x8004 ∧
    after [0x30, 0x02] State.reset (fun t => t.pc) = some 0x8002 := by decide
/-- V79, V80: BVC and BVS. -/
theorem test_bvc_bvs :
    after [0x50, 0x02] State.reset (fun t => t.pc) = some 0x8004 ∧
    after [0x50, 0x02] { State.reset with p := 0x40 } (fun t => t.pc) = some 0x8002 ∧
    after [0x70, 0x02] { State.reset with p := 0x40 } (fun t => t.pc) = some 0x8004 ∧
    after [0x70, 0x02] State.reset (fun t => t.pc) = some 0x8002 := by decide
/-- V81, V82: BCC and BCS. -/
theorem test_bcc_bcs :
    after [0x90, 0x02] State.reset (fun t => t.pc) = some 0x8004 ∧
    after [0x90, 0x02] { State.reset with p := 0x01 } (fun t => t.pc) = some 0x8002 ∧
    after [0xB0, 0x02] { State.reset with p := 0x01 } (fun t => t.pc) = some 0x8004 ∧
    after [0xB0, 0x02] State.reset (fun t => t.pc) = some 0x8002 := by decide
/-- V85. -/
theorem test_jmp : after [0x4C, 0x34, 0x12] State.reset (fun t => (t.pc, t.ppu.cycle)) = some (0x1234, 9) := by decide
/-- V87, V88. -/
theorem test_jsr :
    after [0x20, 0x06, 0x80] { State.reset with sp := 0x10 } (fun t => (t.ram, t.sp, t.pc)) = some ([(0x110, 0x80), (0x111, 0x03)], 0x12, 0x8006) ∧
    after [0x20, 0x06, 0x80] { State.reset with sp := 0xFF } (fun t => (t.ram, t.sp)) = some ([(0x100, 0x03), (0x1FF, 0x80)], 0x01) := by decide
/-- V89, V89b. -/
theorem test_rts :
    after [0x60] { State.reset with sp := 2, ram := [(0x100, 0x12), (0x101, 0x34)] } (fun t => (t.pc, t.sp)) = some (0x1234, 0x00) ∧
    after [0x60] { State.reset with sp := 1, ram := [(0x100, 0x34), (0x1FF, 0x12)] } (fun t => (t.pc, t.sp)) = some (0x1234, 0xFF) := by decide
/-- V89d, V89f. -/
theorem test_sei :
    after [0x78] State.reset (fun t => (t.p, t.pc)) = some (0x04, 0x8001) ∧
    after [0x78] { State.reset with p := 0xC3 } (fun t => t.p) = some 0xC7 := by decide

/-- V89i (the operand byte is not fetched), V89k (fetch from an unmapped address). -/
theorem test_unimplemented :
    after [0x69, 0x01] { State.reset with a := 0x10 } (fun t => (t.halted, t.pc, t.a, t.ppu.cycle)) = some (some (.unimplementedOpcode 0x69 0x8000), 0x8001, 0x10, 0) ∧
    stepped { State.reset with pc := 0x4000 } (fun t => (t.halted, t.pc)) = some (some (.unimplementedOpcode 0x00 0x4000), 0x4001) := by decide
/-- V89l: a fetch from the data port. -/
theorem test_fetch_from_data_port :
    stepped { State.reset with pc := 0x2007, x := 1, ppu := { State.reset.ppu with readBuffer := 0xE8, latchHi := 1, vram := [(0x100, 0x55)] } }
      (fun t => (t.x, t.pc, t.ppu.readBuffer, t.ppu.cur)) = some (0x02, 0x2008, 0x55, 0x0101) := by decide

/-! ### The VideoUnit -/

/-- A reset VideoUnit to start from. -/
def ppu0 : Ppu := State.reset.ppu

/-- V90a, V90b. -/
theorem test_address_port :
    ((ppu0.writeAddress 0x3F).writeAddress 0x10).cur = 0x3F10 ∧ ((ppu0.writeAddress 0x7F).writeAddress 0x10).cur = 0x3F10 ∧
      ((ppu0.writeAddress 0x7F).writeAddress 0x10).latchHi = 0x3F := by decide
/-- V90c, V90d. -/
theorem test_address_port_halves :
    ((ppu0.writeAddress 0xFF).writeData 0xAB).vram = [(0x3F00, 0xAB)] ∧ ((ppu0.writeAddress 0xFF).writeData 0xAB).cur = 0x3F01 ∧
      ((ppu0.writeAddress 0xFF).writeData 0xAB).toggle = .lowNext ∧
      (((ppu0.writeAddress 0x20).writeAddress 0x00).writeAddress 0x21).latchHi = 0x21 := by decide
/-- V90g: the 14-bit wrap and the delay of one read. -/
theorem test_data_port_reads :
    let u : Ppu := { ppu0 with latchHi := 0x3F, latchLo := 0xFF, readBuffer := 1, vram := [(0, 3), (0x3FFF, 2)] }
    u.read.1 = 1 ∧ u.read.2.read.1 = 2 ∧ u.read.2.read.2.read.1 = 3 ∧ u.read.2.read.2.read.2.cur = 0x0002 := by decide

/-- V92, V97, V98: the counters of `ppu.run`. -/
theorem test_run_counters :
    (Ppu.run ⟨[], [], ⟨0, 0, 0, 0⟩⟩ 6 { ppu0 with cycle := 335 }).1.scanline = 1 ∧
    (Ppu.run ⟨[], [], ⟨0, 0, 0, 0⟩⟩ 9 { ppu0 with cycle := 335, scanline := 261 }).1.cycle = 3 ∧
    (Ppu.run ⟨[], [], ⟨0, 0, 0, 0⟩⟩ 9 { ppu0 with cycle := 335, scanline := 261 }).1.scanline = 0 ∧
    (Ppu.run ⟨[], [], ⟨0, 0, 0, 0⟩⟩ 9 { ppu0 with cycle := 335, scanline := 261 }).2 = true ∧
    (Ppu.run ⟨[], [], ⟨0, 0, 0, 0⟩⟩ 1028 ppu0).1.scanline = 3 := by decide
/-- The rows of V93 to V96: 8 and 240 build one, 248 and 7 do not. -/
theorem test_rows_due : buildsRow 8 = true ∧ buildsRow 240 = true ∧ buildsRow 248 = false ∧ buildsRow 7 = false := by decide

/-- The graphics ROM of the spec's `buildRow` instance. -/
def tile1 : Memory := [(16, 0x80), (24, 0x80), (31, 0x01)]

/-- The spec's `buildRow` instance (section 2.9). -/
theorem test_tile_and_row :
    (tilePixel tile1 1 0 0).toNat = 3 ∧ (tilePixel tile1 1 7 7).toNat = 2 ∧ (tilePixel tile1 1 0 1).toNat = 0 ∧
    rowPixel ⟨[], tile1, ⟨10, 11, 12, 13⟩⟩ [(0x2000, 1)] 0 0 0 = 13 ∧
    rowPixel ⟨[], tile1, ⟨10, 11, 12, 13⟩⟩ [(0x2000, 1)] 0 7 7 = 12 ∧
    rowPixel ⟨[], tile1, ⟨10, 11, 12, 13⟩⟩ [(0x2000, 1)] 0 0 8 = 10 := by decide

/-! ### The Bus -/

/-- V100, V103, V105, V106. -/
theorem test_bus :
    memWrite 0x1FFF 0xA1 State.reset = .goesOn { State.reset with ram := [(0x7FF, 0xA1)] } ∧
    memRead 0x4016 State.reset = (0, State.reset) ∧ memWrite 0x2003 0xFF State.reset = .goesOn State.reset ∧
    memWrite 0xFFFF 0x00 State.reset = .halts { State.reset with halted := some (.romWrite 0xFFFF 0x00) } := by decide

/-! ### Reset, and the first instruction after it -/

/-- The reset values of log entries 1, 2 and the launch values of R270, R271. -/
theorem test_reset_values :
    (State.reset.a, State.reset.x, State.reset.y, State.reset.sp, State.reset.p, State.reset.pc) = (0, 0, 0, 0, 0, 0x8000) ∧
    State.reset.ppu.toggle = .highNext ∧ State.reset.halted = none := by decide

/-- A table word placed at the fetch runs as the first instruction after reset; from a halted machine, and from a PC where no memory is, it runs too. -/
theorem test_withFetchWord :
    stepped (State.reset.withFetchWord 16 0x05A9) (fun t => (t.a, t.pc, t.ppu.cycle)) = some (0x05, 0x8002, 6) ∧
    stepped ({ State.reset with pc := 0x2007 }.withFetchWord 24 0x00AD) (fun t => t.pc) = some 0x8003 ∧
    stepped ({ State.reset with halted := some (.romWrite 0x8000 0) }.withFetchWord 8 0xE8) (fun t => t.x) = some 0x01 := by decide

/-! ### Witnesses: for each obligation with hypotheses, states and operands that meet them

A hypothesis that is a clause's range is met at the ends of the range. -/

/-- LDA #$05 placed at PC, and the state its two fetches leave. -/
def sLda : State := readyToRun [0xA9, 0x05] State.reset
/-- `STA $8000` placed at PC. -/
def sRomStore : State := readyToRun [0x8D, 0x00, 0x80] State.reset

/-- Fetching one, two and three bytes, from program ROM; and from the top of the address space, where PC wraps (R110). -/
theorem witness_Row :
    Stated.Fetches [0xE8] (readyToRun [0xE8] State.reset) ((readyToRun [0xE8] State.reset).setPC 0x8001) ∧
    Stated.Fetches [0xA9, 0x05] sLda (sLda.setPC 0x8002) ∧
    Stated.Fetches [0x8D, 0x00, 0x80] sRomStore (sRomStore.setPC 0x8003) ∧
    Stated.Fetches [0xD0, 0x10] (readyToRun [0xD0, 0x10] { State.reset with pc := 0xFFFE })
      ((readyToRun [0xD0, 0x10] { State.reset with pc := 0xFFFE }).setPC 0x0000) := by
  refine ⟨⟨by decide, show _ = _ by decide⟩, ⟨by decide, by decide, show _ = _ by decide⟩,
    ⟨by decide, by decide, by decide, show _ = _ by decide⟩, ⟨by decide, by decide, show _ = _ by decide⟩⟩

/-- One instruction that completes and one that halts. -/
theorem witness_StepRunsDecodedInstruction :
    (Running sLda ∧ decode [0xA9, 0x05] = .ok (.ldaImm 0x05, []) ∧ Stated.Fetches [0xA9, 0x05] sLda (sLda.setPC 0x8002)) ∧
    (Running sRomStore ∧ decode [0x8D, 0x00, 0x80] = .ok (.staAbs 0x00 0x80, []) ∧
      Stated.Fetches [0x8D, 0x00, 0x80] sRomStore (sRomStore.setPC 0x8003) ∧
      ∃ u, exec (.staAbs 0x00 0x80) (sRomStore.setPC 0x8003) = .next u ∧ u.halted ≠ none) :=
  ⟨⟨rfl, rfl, witness_Row.2.1⟩, rfl, rfl, witness_Row.2.2.1, _, rfl, by decide⟩

/-- The byte 0xEA begins no instruction, and it is the byte at PC. -/
theorem witness_UnimplementedOpcodeHalts :
    Running (readyToRun [0xEA] State.reset) ∧
    ∀ i : Instr, (encode i).head? ≠ some (Stated.busByte (readyToRun [0xEA] State.reset) (readyToRun [0xEA] State.reset).pc) := by
  have hb : Stated.busByte (readyToRun [0xEA] State.reset) (readyToRun [0xEA] State.reset).pc = 0xEA := by decide
  refine ⟨rfl, fun i => ?_⟩
  rw [hb]
  cases i <;> simp [encode]

/-- Both sides of the decoder's equivalence: 0xEA begins no instruction, 0xA9 begins one. -/
theorem witness_DecoderRefusesTheOther210 :
    decode [0xEA] = .error (.unimplemented 0xEA) ∧ (encode (.ldaImm 0)).head? = some 0xA9 := ⟨rfl, rfl⟩

/-- A halted machine and a running one. -/
theorem witness_OnlyAHaltStopsTheMachine :
    (State.reset.setHalted (some (.romWrite 0x8000 1))).halted = some (.romWrite 0x8000 1) ∧ Running State.reset := ⟨rfl, rfl⟩

/-- The two outcomes, at the two addresses where the regions meet. -/
theorem witness_RomWriteOnlyByAbsoluteStores :
    exec (.staAbs 0xFF 0x7F) State.reset = .next State.reset ∧
    exec (.staAbs 0x00 0x80) State.reset = .next (State.reset.setHalted (some (.romWrite 0x8000 0))) := by
  constructor <;> rfl

/-- The two clauses of a store's and of INC's and DEC's rule, at 0x7FFF, 0x8000 and 0xFFFF, in both absolute modes. -/
theorem witness_StoresTo_and_Modifies :
    (Stated.absolute 0xFF 0x7F).toNat < 0x8000 ∧ 0x8000 ≤ (Stated.absolute 0x00 0x80).toNat ∧
    0x8000 ≤ (Stated.absolute 0xFF 0xFF).toNat ∧
    (Stated.absoluteX 0xFE 0x7F { State.reset with x := 1 }).toNat = 0x7FFF ∧
    0x8000 ≤ (Stated.absoluteX 0xFF 0x7F { State.reset with x := 1 }).toNat ∧
    (Stated.absoluteX 0xFF 0xFF { State.reset with x := 1 }).toNat < 0x8000 ∧
    (Stated.zeroPage 0xFF).toNat < 0x8000 ∧ (Stated.zeroPageX 0xFF { State.reset with x := 0xFF }).toNat < 0x8000 := by
  decide

/-- A call whose two stack bytes lie on both sides of the page's wrap, returned from at once. -/
theorem witness_CallThenReturnRestores :
    ∃ t u : State, exec (.jsr 0x06 0x80) { State.reset with sp := 0xFF, pc := 0x8003 } = .next t ∧ u.sp = t.sp ∧
      u.ram.read (0x100 + 0xFF) = t.ram.read (0x100 + 0xFF) ∧ u.ram.read 0x100 = t.ram.read 0x100 ∧ u.a ≠ t.a := by
  refine ⟨_, { State.reset with sp := 1, ram := [(0x100, 0x03), (0x1FF, 0x80)], a := 7 }, rfl, ?_, ?_, ?_, ?_⟩ <;> decide

/-- BNE -3 placed at PC, with Z clear and with Z set. -/
def sBne (p : Byte) : State := readyToRun [0xD0, 0xFD] { State.reset with p := p }

/-- BNE taken and not taken. -/
theorem witness_BranchStepMovesPC :
    (Running (sBne 0x00) ∧ (sBne 0x00).p.getLsbD 1 = false ∧ Stated.Fetches [0xD0, 0xFD] (sBne 0x00) ((sBne 0x00).setPC 0x8002) ∧
      ∃ u, step (sBne 0x00) = .next u) ∧
    (Running (sBne 0x02) ∧ (sBne 0x02).p.getLsbD 1 = true ∧ Stated.Fetches [0xD0, 0xFD] (sBne 0x02) ((sBne 0x02).setPC 0x8002) ∧
      ∃ u, step (sBne 0x02) = .next u) :=
  ⟨⟨rfl, by decide, ⟨by decide, by decide, show _ = _ by decide⟩, _, rfl⟩,
    ⟨rfl, by decide, ⟨by decide, by decide, show _ = _ by decide⟩, _, rfl⟩⟩

/-- `JMP $8000` at 0x8000. -/
theorem witness_JumpToSelfIdles :
    ∃ s t, Running s ∧ Stated.Fetches [0x4C, 0x00, 0x80] s t ∧ t.ppu = s.ppu ∧ s.pc = Stated.absolute 0x00 0x80 :=
  ⟨readyToRun [0x4C, 0x00, 0x80] State.reset, (readyToRun [0x4C, 0x00, 0x80] State.reset).setPC 0x8003, rfl,
    ⟨by decide, by decide, by decide, show _ = _ by decide⟩, rfl, by decide⟩

/-- The data port at its first and last alias, and the addresses beside them that are not. -/
theorem witness_IncOnDataPortUsesStaleBuffer :
    Stated.IsDataPort (Stated.absolute 0x07 0x20) ∧ Stated.IsDataPort (Stated.absolute 0xFF 0x3F) ∧
    ¬ Stated.IsDataPort (Stated.absolute 0x06 0x20) ∧ ¬ Stated.IsDataPort (Stated.absolute 0xFF 0x1F) ∧
    ¬ Stated.IsDataPort (Stated.absolute 0x07 0x40) := by decide

/-- A load from the data port, a load from elsewhere, an immediate and a register step. -/
theorem witness_LoadAndIndexStepFrame :
    (∃ t, exec (.ldaAbs 0x07 0x20) State.reset = .next t ∧ t.ppu ≠ State.reset.ppu) ∧
    (∃ t, exec (.ldxAbs 0x06 0x20) State.reset = .next t ∧
      ∀ a, loadEa (.ldxAbs 0x06 0x20) State.reset = some a → ¬ Stated.IsDataPort a) ∧
    (∃ t, exec (.ldyImm 0xFF) State.reset = .next t) ∧ (∃ t, exec .inx State.reset = .next t) := by
  refine ⟨⟨_, rfl, by decide⟩, ⟨_, rfl, ?_⟩, ⟨_, rfl⟩, ⟨_, rfl⟩⟩
  intro a ha
  cases Option.some.inj ha
  decide

/-- The clauses of the stores' frame: a store and an INC on work memory, on the address port, on the data port, in program ROM. -/
theorem witness_StoreFrame :
    ∀ i ∈ [Instr.staAbs 0xFF 0x1F, .incAbs 0x00 0x00, .staAbs 0x06 0x20, .decAbs 0x06 0x20, .stxAbs 0x07 0x20,
        .incAbs 0xFF 0x3F, .styAbs 0x00 0x80, .decAbsX 0xFF 0xFF],
      ∃ ea t, storeEa i State.reset = some ea ∧ exec i State.reset = .next t := by
  intro i hi
  simp only [List.mem_cons, List.not_mem_nil, or_false] at hi
  rcases hi with rfl | rfl | rfl | rfl | rfl | rfl | rfl | rfl <;> exact ⟨_, _, rfl, rfl⟩

/-- A store at the data port leaves every VideoUnit byte but the one at the latch; an INC there, but the one after it. -/
theorem witness_StoreFrame_dataPort :
    loadEa (.stxAbs 0x07 0x20) State.reset = none ∧ (1 : Nat) ≠ Stated.cur State.reset.ppu ∧
    loadEa (.incAbs 0xFF 0x3F) State.reset = some (Stated.absolute 0xFF 0x3F) ∧
    (0 : Nat) ≠ Stated.succ14 (Stated.cur State.reset.ppu) := by decide

/-- JSR with its two stack slots at the page's ends and an address beside them; RTS; a branch taken; SEI. -/
theorem witness_ControlFrame :
    (∃ t, exec (.jsr 0x06 0x80) { State.reset with sp := 0xFF } = .next t ∧
      (0x0101 : Addr).toNat % 0x800 ≠ (stackAddr { State.reset with sp := 0xFF }).toNat ∧
      (0x0101 : Addr).toNat % 0x800 ≠ (stackAddr { State.reset with sp := 0x00 }).toNat) ∧
    (∃ t, exec .rts State.reset = .next t) ∧ (∃ t, exec (.bpl 0x80) State.reset = .next t ∧ t.pc ≠ State.reset.pc) ∧
    (∃ t, exec .sei State.reset = .next t) :=
  ⟨⟨_, rfl, by decide, by decide⟩, ⟨_, rfl⟩, ⟨_, rfl, by decide⟩, ⟨_, rfl⟩⟩

/-- A step from a state whose I flag is set. -/
theorem witness_NoStepWritesTheOtherFlags :
    ({ sLda with p := 0xFF } : State).p.getLsbD 2 = true ∧ ∃ t, step { sLda with p := 0xFF } = .next t := ⟨rfl, _, rfl⟩

/-- Each of the four registers does change. -/
theorem witness_RegistersHaveTheirWriters :
    (∃ t, exec (.ldaImm 5) State.reset = .next t ∧ t.a ≠ State.reset.a) ∧
    (∃ t, exec .dex State.reset = .next t ∧ t.x ≠ State.reset.x) ∧
    (∃ t, exec .iny State.reset = .next t ∧ t.y ≠ State.reset.y) ∧
    (∃ t, exec (.jsr 0 0) State.reset = .next t ∧ t.sp ≠ State.reset.sp) :=
  ⟨⟨_, rfl, by decide⟩, ⟨_, rfl, by decide⟩, ⟨_, rfl, by decide⟩, ⟨_, rfl, by decide⟩⟩

theorem witness_NoStepChangesTheParameters : ∃ t, step sLda = .next t := ⟨_, rfl⟩

/-- Launch inputs that list something in every memory, with the counters' ends beside them. -/
def fullLaunch : Launch :=
  { Launch.zeros with
    ram := [(0, 1), (0x7FF, 0xFF)], vram := [(0x3FFF, 1)], fb := [(0, 3), (61439, 3)]
    params := { prg := [(0, 0xE8), (0x3FFF, 1)], chr := [(0, 1), (8191, 1)], palette := ⟨0, 1, 2, 3⟩ } }

theorem witness_LaunchMeetsInvariant : fullLaunch.Ok ∧ Launch.zeros.Ok :=
  ⟨⟨by decide, by decide, by decide, by decide, by decide⟩, ⟨by decide, by decide, by decide, by decide, by decide⟩⟩

/-- The reset state meets the invariant; so does a state at the counters' ends that is not a launch state, and it steps on. -/
theorem reset_inv : Inv State.reset :=
  ⟨by decide, by decide, by decide, by decide, by decide, by decide, by decide, fun _ => by decide, trivial⟩

theorem witness_StepKeepsInvariant :
    Inv ({ State.launch fullLaunch with ppu := { (State.launch fullLaunch).ppu with cycle := 340, scanline := 261, latchHi := 0xFF, toggle := .lowNext } }) ∧
    ∃ t, step ({ State.launch fullLaunch with ppu := { (State.launch fullLaunch).ppu with cycle := 340, scanline := 261, latchHi := 0xFF, toggle := .lowNext } }) = .next t :=
  ⟨⟨by decide, by decide, by decide, by decide, by decide, by decide, by decide, fun h => (nomatch h), trivial⟩, _, rfl⟩

/-- Two states with different pictures, running and halted. -/
theorem witness_PictureNeverReachesTheCpu :
    ({ sLda with ppu := { sLda.ppu with cycle := 340, scanline := 7, fb := [(0, 1)] } } : State) ≠ sLda ∧
    State.withoutPicture { sLda with ppu := { sLda.ppu with cycle := 340, scanline := 7, fb := [(0, 1)] } } = sLda.withoutPicture ∧
    (∃ t, step sLda = .next t) ∧ step (sLda.setHalted (some (.romWrite 0x8000 1))) = .fault (.halted (.romWrite 0x8000 1)) :=
  ⟨by decide, rfl, ⟨_, rfl⟩, rfl⟩

/-- Both clauses of the Bus read at the ends of program ROM, and the region borders of the read and the write. -/
theorem witness_BusRead_and_BusWrite :
    ¬ Stated.IsDataPort 0x8000 ∧ 0x8000 ≤ (0x8000 : Addr).toNat ∧ 0x8000 ≤ (0xFFFF : Addr).toNat ∧
    (0x7FFF : Addr).toNat < 0x8000 ∧ Stated.IsAddressPort 0x3FFE ∧ Stated.IsDataPort 0x3FFF ∧ ¬ Stated.IsDataPort 0x1FFF := by
  decide

theorem witness_MirrorsReadBackTheWrite :
    (0x07FF : Addr).toNat < 0x2000 ∧ (0x1FFF : Addr).toNat < 0x2000 ∧ (0x1FFF : Addr).toNat % 0x800 = (0x07FF : Addr).toNat % 0x800 := by
  decide

/-- For the pair of address writes, and for the two reads after it. -/
theorem witness_AddressPortPairs_and_SecondRead : ppu0.toggle = .highNext := rfl

theorem witness_DataPortWriteStores : (1 : Nat) ≠ Stated.cur ppu0 ∧ (0x3FFF : Nat) ≠ Stated.cur ppu0 := by decide

/-- The first and the last port address, read and written, in each clause. -/
theorem witness_OtherPortsAreInert :
    0x2000 ≤ (0x2000 : Addr).toNat ∧ (0x3FFE : Addr).toNat < 0x4000 ∧ (0x3FFE : Addr).toNat % 8 ≠ 7 ∧
    (0x3FFD : Addr).toNat % 8 ≤ 5 ∧ (0x2000 : Addr).toNat % 8 ≤ 5 := by decide

/-- The ends of the pixel ranges; row 1, with a row of pixels above it and one below it. -/
theorem witness_TileDecoding_and_BuildRow :
    (7 < 8 ∧ 0 < 8) ∧ (255 < 256 ∧ (7 < 8 * 1 ∨ 8 * 1 + 8 ≤ 7)) ∧ (16 < 8 * 1 ∨ 8 * 1 + 8 ≤ 16) := by decide

/-- The last accumulator value that only accumulates and the first that passes a line; the two clauses exclude each other. -/
theorem witness_RunIsTheScanlineLoop :
    ({ ppu0 with cycle := 334 } : Ppu).cycle + 6 < 341 ∧ 341 ≤ ({ ppu0 with cycle := 335 } : Ppu).cycle + 6 := by decide

/-- The last place of a frame. -/
theorem witness_RunKeepsFrameTime :
    ({ ppu0 with cycle := 340, scanline := 261 } : Ppu).cycle < 341 ∧ ({ ppu0 with cycle := 340, scanline := 261 } : Ppu).scanline < 262 ∧
    Stated.place { ppu0 with cycle := 340, scanline := 261 } + 1 = 89342 := by decide

/-- The spec's instance S9: one program unit, one graphics unit, 24592 bytes. -/
theorem witness_BootImageLayout :
    ∃ image : List Byte, image.getD 4 0 = 1 ∧ (image.getD 5 0).toNat = 1 ∧ 16 + 16384 + 8192 * 1 ≤ image.length ∧
      (0 < 16384 ∧ 16383 < 16384) ∧ 8191 < 8192 * 1 := by
  refine ⟨[0, 0, 0, 0, 1, 1] ++ List.replicate 24586 0, rfl, rfl, ?_, by decide, by decide⟩
  rw [List.length_append, List.length_replicate]; decide

end Sys2Proof.Tests
end

section
/-! SUPPORT. Proofs of the statements about the state (spec/10_state.md): what a Bus access and a load do to the state, what every step keeps, and the machine's invariant. -/

namespace Sys2Proof.Machine

/-! ### What a Bus access can do to the state -/

/-- Everything a Bus write that goes on can do (R59 to R61). -/
theorem memWrite_goesOn {a : Addr} {v : Byte} {s t : State} (h : memWrite a v s = .goesOn t) :
    (a.toNat < 0x2000 ∧ t = s.setRam (s.ram.write (a.toNat % 0x800) v)) ∨
    (Stated.IsAddressPort a ∧ t = s.setPpu (s.ppu.writeAddress v)) ∨
    (Stated.IsDataPort a ∧ t = s.setPpu (s.ppu.writeData v)) ∨ t = s := by
  rcases memWrite_cases a v s with ⟨ha, hw⟩ | ⟨h2, h4, h6, hw⟩ | ⟨h2, h4, h7, hw⟩ | ⟨-, -, -, -, hw⟩ | ⟨-, -, hw⟩ | ⟨-, hw⟩ <;>
    rw [hw] at h <;> cases h
  · exact .inl ⟨ha, rfl⟩
  · exact .inr (.inl ⟨⟨h2, h4, h6⟩, rfl⟩)
  · exact .inr (.inr (.inl ⟨⟨h2, h4, h7⟩, rfl⟩))
  · exact .inr (.inr (.inr rfl))
  · exact .inr (.inr (.inr rfl))

/-- A Bus write that is fatal records its address, which is in program ROM (R62). -/
theorem memWrite_halts {a : Addr} {v : Byte} {s t : State} (h : memWrite a v s = .halts t) :
    0x8000 ≤ a.toNat ∧ t = s.setHalted (some (.romWrite a v)) := by
  rcases memWrite_cases a v s with ⟨-, hw⟩ | ⟨-, -, -, hw⟩ | ⟨-, -, -, hw⟩ | ⟨-, -, -, -, hw⟩ | ⟨-, -, hw⟩ | ⟨ha, hw⟩ <;>
    rw [hw] at h <;> cases h
  exact ⟨ha, rfl⟩

/-- Everything a Bus write can do to the state, whether it goes on or is fatal. -/
theorem memWrite_state_cases (a : Addr) (v : Byte) (s : State) :
    (a.toNat < 0x2000 ∧ (memWrite a v s).state = s.setRam (s.ram.write (a.toNat % 0x800) v)) ∨
    (Stated.IsAddressPort a ∧ (memWrite a v s).state = s.setPpu (s.ppu.writeAddress v)) ∨
    (Stated.IsDataPort a ∧ (memWrite a v s).state = s.setPpu (s.ppu.writeData v)) ∨
    ∃ c, (memWrite a v s).state = s.setHalted c := by
  cases hw : memWrite a v s with
  | goesOn t =>
    rcases memWrite_goesOn hw with h | h | h | rfl
    · exact .inl h
    · exact .inr (.inl h)
    · exact .inr (.inr (.inl h))
    · exact .inr (.inr (.inr ⟨t.halted, rfl⟩))
  | halts t => exact .inr (.inr (.inr ⟨_, (memWrite_halts hw).2⟩))

section
variable (a : Addr) (v : Byte) (s : State)

@[simp] theorem memWrite_sp : (memWrite a v s).state.sp = s.sp := by
  rcases memWrite_state_cases a v s with ⟨-, h⟩ | ⟨-, h⟩ | ⟨-, h⟩ | ⟨_, h⟩ <;> rw [h] <;> rfl
@[simp] theorem memWrite_pc : (memWrite a v s).state.pc = s.pc := by
  rcases memWrite_state_cases a v s with ⟨-, h⟩ | ⟨-, h⟩ | ⟨-, h⟩ | ⟨_, h⟩ <;> rw [h] <;> rfl
@[simp] theorem memWrite_p : (memWrite a v s).state.p = s.p := by
  rcases memWrite_state_cases a v s with ⟨-, h⟩ | ⟨-, h⟩ | ⟨-, h⟩ | ⟨_, h⟩ <;> rw [h] <;> rfl
@[simp] theorem memWrite_params : (memWrite a v s).state.params = s.params := by
  rcases memWrite_state_cases a v s with ⟨-, h⟩ | ⟨-, h⟩ | ⟨-, h⟩ | ⟨_, h⟩ <;> rw [h] <;> rfl
@[simp] theorem memWrite_reg (r : Reg) : (memWrite a v s).state.reg r = s.reg r := by
  rcases memWrite_state_cases a v s with ⟨-, h⟩ | ⟨-, h⟩ | ⟨-, h⟩ | ⟨_, h⟩ <;> rw [h] <;> cases r <;> rfl
@[simp] theorem memWrite_cycle : (memWrite a v s).state.ppu.cycle = s.ppu.cycle := by
  rcases memWrite_state_cases a v s with ⟨-, h⟩ | ⟨-, h⟩ | ⟨-, h⟩ | ⟨_, h⟩ <;> simp [h]
@[simp] theorem memWrite_scanline : (memWrite a v s).state.ppu.scanline = s.ppu.scanline := by
  rcases memWrite_state_cases a v s with ⟨-, h⟩ | ⟨-, h⟩ | ⟨-, h⟩ | ⟨_, h⟩ <;> simp [h]
@[simp] theorem memWrite_fb : (memWrite a v s).state.ppu.fb = s.ppu.fb := by
  rcases memWrite_state_cases a v s with ⟨-, h⟩ | ⟨-, h⟩ | ⟨-, h⟩ | ⟨_, h⟩ <;> simp [h]
@[simp] theorem memWrite_readBuffer : (memWrite a v s).state.ppu.readBuffer = s.ppu.readBuffer := by
  rcases memWrite_state_cases a v s with ⟨-, h⟩ | ⟨-, h⟩ | ⟨-, h⟩ | ⟨_, h⟩ <;> simp [h]

variable {a s}

/-- A write leaves every work-memory byte but the one it names (R60). -/
theorem memWrite_ram_read {k : Nat} (hk : ¬ (a.toNat < 0x2000 ∧ k = a.toNat % 0x800)) :
    (memWrite a v s).state.ram.read k = s.ram.read k := by
  rcases memWrite_state_cases a v s with ⟨ha, h⟩ | ⟨-, h⟩ | ⟨-, h⟩ | ⟨_, h⟩ <;> rw [h]
  · exact Memory.read_write_other _ _ _ _ fun hka => hk ⟨ha, hka⟩
  all_goals rfl

/-- A write leaves every VideoUnit memory byte but the one a data-port write stores to (R229). -/
theorem memWrite_vram_read {k : Nat} (hk : Stated.IsDataPort a → k ≠ s.ppu.cur.toNat) :
    (memWrite a v s).state.ppu.vram.read k = s.ppu.vram.read k := by
  rcases memWrite_state_cases a v s with ⟨-, h⟩ | ⟨-, h⟩ | ⟨ha, h⟩ | ⟨_, h⟩ <;> rw [h]
  · rfl
  · rw [State.setPpu_ppu, Ppu.writeAddress_vram]
  · exact Memory.read_write_other _ _ _ _ (hk ha)
  · rfl

/-- A write leaves the whole VideoUnit unless it is at one of the two acting ports (R224). -/
theorem memWrite_ppu_of_not_acting (hd : ¬ Stated.IsDataPort a) (ha : ¬ Stated.IsAddressPort a) :
    (memWrite a v s).state.ppu = s.ppu := by
  rcases memWrite_state_cases a v s with ⟨-, h⟩ | ⟨h', -⟩ | ⟨h', -⟩ | ⟨_, h⟩
  · rw [h]; rfl
  · exact absurd h' ha
  · exact absurd h' hd
  · rw [h]; rfl

end

section
variable (a : Addr) (s : State)

@[simp] theorem memRead_reg (r : Reg) : (memRead a s).2.reg r = s.reg r := by
  cases r <;> simp [State.reg]
@[simp] theorem memRead_vram : (memRead a s).2.ppu.vram = s.ppu.vram := by
  rcases memRead_state a s with h | h <;> rw [h]; rfl
@[simp] theorem memRead_toggle : (memRead a s).2.ppu.toggle = s.ppu.toggle := by
  rcases memRead_state a s with h | h <;> rw [h]; rfl
@[simp] theorem memRead_cycle : (memRead a s).2.ppu.cycle = s.ppu.cycle := by
  rcases memRead_state a s with h | h <;> rw [h]; rfl
@[simp] theorem memRead_scanline : (memRead a s).2.ppu.scanline = s.ppu.scanline := by
  rcases memRead_state a s with h | h <;> rw [h]; rfl
@[simp] theorem memRead_fb : (memRead a s).2.ppu.fb = s.ppu.fb := by
  rcases memRead_state a s with h | h <;> rw [h]; rfl

variable {a}

/-- A read of any address but the data port has no side effect (R56). -/
theorem memRead_of_not_dataPort (ha : ¬ Stated.IsDataPort a) : (memRead a s).2 = s := by
  rcases memRead_cases a s with ⟨-, h⟩ | ⟨h2, h4, h7, -⟩ | ⟨-, -, -, h⟩ | ⟨-, -, h⟩ | ⟨-, h⟩
  · rw [h]
  · exact absurd ⟨h2, h4, h7⟩ ha
  all_goals rw [h]

/-- A read of the data port is one buffered read of the VideoUnit (R54). -/
theorem memRead_of_dataPort (ha : Stated.IsDataPort a) : memRead a s = (s.ppu.readBuffer, s.setPpu s.ppu.read.2) := by
  obtain ⟨h2, h4, h7⟩ := ha
  rcases memRead_cases a s with ⟨h', -⟩ | ⟨-, -, -, h⟩ | ⟨-, -, h', -⟩ | ⟨h', -⟩ | ⟨h', -⟩
  · omega
  · exact h
  all_goals omega

/-- The byte a read returns is the byte of its region (R52 to R55, R58). -/
theorem memRead_fst (a : Addr) : (memRead a s).1 = Stated.busByte s a := by
  unfold Stated.busByte
  rcases memRead_cases a s with ⟨h1, h⟩ | ⟨h2, h4, h7, h⟩ | ⟨h2, h4, h7, h⟩ | ⟨h4, h8, h⟩ | ⟨h8, h⟩ <;> rw [h]
  · rw [if_pos h1]
  · rw [if_neg (by omega), if_pos h4, if_pos h7]
  · rw [if_neg (by omega), if_pos h4, if_neg h7]
  · rw [if_neg (by omega), if_neg (by omega), if_pos h8]
  · rw [if_neg (by omega), if_neg (by omega), if_neg (by omega)]

/-- Two states give the same byte at an address whose region holds the same in both. -/
theorem memRead_fst_congr {s t : State}
    (hram : a.toNat < 0x2000 → t.ram.read (a.toNat % 0x800) = s.ram.read (a.toNat % 0x800))
    (hport : 0x2000 ≤ a.toNat ∧ a.toNat < 0x4000 → t.ppu.readBuffer = s.ppu.readBuffer)
    (hparams : t.params = s.params) : (memRead a t).1 = (memRead a s).1 := by
  rw [memRead_fst, memRead_fst]
  unfold Stated.busByte
  split_ifs with h1 h2
  · exact hram h1
  · exact hport ⟨by omega, h2⟩
  · rfl
  · rfl
  · rw [hparams]

end

/-! ### What a load leaves unchanged -/

section
variable (s : State) (r : Reg) (v : Byte)

@[simp] theorem State.setReg_sp : (s.setReg r v).sp = s.sp := by cases r <;> rfl
@[simp] theorem State.setReg_pc : (s.setReg r v).pc = s.pc := by cases r <;> rfl
@[simp] theorem State.setReg_p : (s.setReg r v).p = s.p := by cases r <;> rfl
@[simp] theorem State.setReg_ram : (s.setReg r v).ram = s.ram := by cases r <;> rfl
@[simp] theorem State.setReg_ppu : (s.setReg r v).ppu = s.ppu := by cases r <;> rfl
@[simp] theorem State.setReg_halted : (s.setReg r v).halted = s.halted := by cases r <;> rfl
@[simp] theorem State.setReg_params : (s.setReg r v).params = s.params := by cases r <;> rfl
@[simp] theorem setNZ_reg : (setNZ v s).reg r = s.reg r := by cases r <;> rfl

theorem State.reg_setReg_other {r r' : Reg} (h : r' ≠ r) : (s.setReg r v).reg r' = s.reg r' := by
  cases r <;> cases r' <;> simp [State.reg, State.setReg] at h ⊢

@[simp] theorem loadValue_sp : (loadValue r v s).sp = s.sp := State.setReg_sp s r v
@[simp] theorem loadValue_pc : (loadValue r v s).pc = s.pc := State.setReg_pc s r v
@[simp] theorem loadValue_ram : (loadValue r v s).ram = s.ram := State.setReg_ram s r v
@[simp] theorem loadValue_ppu : (loadValue r v s).ppu = s.ppu := State.setReg_ppu s r v
@[simp] theorem loadValue_halted : (loadValue r v s).halted = s.halted := State.setReg_halted s r v
@[simp] theorem loadValue_params : (loadValue r v s).params = s.params := State.setReg_params s r v
@[simp] theorem loadValue_p : (loadValue r v s).p = nzByte s.p v := by simp [loadValue]

theorem loadValue_reg_other {r r' : Reg} (h : r' ≠ r) : (loadValue r v s).reg r' = s.reg r' := by
  rw [loadValue, setNZ_reg, State.reg_setReg_other s v h]

end

/-- The flag rule writes bits 1 and 7 only (R120). -/
theorem nzByte_getLsbD_other {p v : Byte} {k : Nat} (hk : k < 8) (h1 : k ≠ 1) (h7 : k ≠ 7) :
    (nzByte p v).getLsbD k = p.getLsbD k := by
  rw [nzByte_getLsbD p v k hk, if_neg h7, if_neg h1]

/-! ### What every step keeps -/

/-- The status byte `q` has the bits of `p` that no instruction writes, and I where `p` has it (R28 to R33). -/
def KeepsOtherFlags (p q : Byte) : Prop :=
  (∀ k, k < 8 → k ≠ 1 → k ≠ 2 → k ≠ 7 → q.getLsbD k = p.getLsbD k) ∧ (p.getLsbD 2 = true → q.getLsbD 2 = true)

theorem KeepsOtherFlags.trans {p q r : Byte} (h : KeepsOtherFlags p q) (h' : KeepsOtherFlags q r) :
    KeepsOtherFlags p r :=
  ⟨fun k hk h1 h2 h7 => (h'.1 k hk h1 h2 h7).trans (h.1 k hk h1 h2 h7), fun hp => h'.2 (h.2 hp)⟩

theorem keepsOtherFlags_nzByte (p v : Byte) : KeepsOtherFlags p (nzByte p v) :=
  ⟨fun _ hk h1 _ h7 => nzByte_getLsbD_other hk h1 h7,
    fun hp => (nzByte_getLsbD_other (by decide) (by decide) (by decide)).trans hp⟩

theorem keepsOtherFlags_setIRQDisable (s : State) : KeepsOtherFlags s.p (setIRQDisable s).p :=
  ⟨fun k hk _ h2 _ => by rw [setIRQDisable_getLsbD s k hk, if_neg h2],
    fun _ => by rw [setIRQDisable_getLsbD s 2 (by decide), if_pos rfl]⟩

namespace Touches

variable {s t : State}

/-- No operation changes the launch parameters (R36, R62). -/
theorem params_eq (h : Touches s t) : t.params = s.params := by
  induction h with
  | start => rfl
  | reads _ a ih => rwa [memRead_params]
  | @writes t u _ a v hw ih | @romWrite t u _ a v hw ih =>
    have hq := memWrite_params a v t
    rw [hw] at hq
    exact hq.trans ih
  | register _ r v ih => rwa [State.setReg_params]
  | stackPointer _ _ ih | counter _ _ ih | flags _ _ ih | disables _ ih => exact ih

theorem keepsOtherFlags (h : Touches s t) : KeepsOtherFlags s.p t.p := by
  induction h with
  | start => exact ⟨fun _ _ _ _ _ => rfl, id⟩
  | reads _ a ih => rwa [memRead_p]
  | @writes t u _ a v hw ih | @romWrite t u _ a v hw ih =>
    have hp := memWrite_p a v t
    rw [hw] at hp
    exact hp.symm ▸ ih
  | register _ r v ih => rwa [State.setReg_p]
  | stackPointer _ _ ih | counter _ _ ih => exact ih
  | flags _ v ih => exact ih.trans (keepsOtherFlags_nzByte _ v)
  | disables _ ih => exact ih.trans (keepsOtherFlags_setIRQDisable _)

/-- Operations leave the halt state, or leave a RomWrite whose address is in program ROM (R251). -/
theorem halted_cases (h : Touches s t) :
    t.halted = s.halted ∨ ∃ a v, t.halted = some (.romWrite a v) ∧ 0x8000 ≤ a.toNat := by
  induction h with
  | start => exact .inl rfl
  | reads _ a ih => rwa [memRead_halted]
  | writes _ a v hw ih =>
    rcases memWrite_goesOn hw with ⟨-, rfl⟩ | ⟨-, rfl⟩ | ⟨-, rfl⟩ | rfl <;> exact ih
  | romWrite _ a v hw _ =>
    obtain ⟨ha, rfl⟩ := memWrite_halts hw
    exact .inr ⟨a, v, rfl, ha⟩
  | register _ r v ih => rwa [State.setReg_halted]
  | stackPointer _ _ ih | counter _ _ ih | flags _ _ ih | disables _ ih => exact ih

end Touches

/-- A fetched instruction's effect comes from the state before the fetch by the machine's operations. -/
theorem effect_touches_of_fetch {s u : State} {i : Instr} (h : fetchInstr s = (.ok i, u)) : Touches s (effect i u) := by
  have hf : Touches s (fetchInstr s).2 := Touches.start.fetchesInstr
  rw [h] at hf
  exact hf.trans (effect_touches i u)

/-- A step is the machine's operations, and then a halt record or the VideoUnit's advance. -/
theorem step_touches {s t : State} (h : step s = .next t) :
    ∃ u, Touches s u ∧ ((∃ c, t = u.setHalted c) ∨ ∃ n, t = u.setPpu (u.ppu.run u.params n).1) := by
  obtain ⟨-, ⟨op, u, hf, rfl⟩ | ⟨i, u, hf, -, rfl⟩ | ⟨i, u, hf, -, rfl⟩⟩ := step_cases h
  · have hu : Touches s (fetchInstr s).2 := Touches.start.fetchesInstr
    rw [hf] at hu
    exact ⟨u, hu, .inl ⟨_, rfl⟩⟩
  · exact ⟨_, effect_touches_of_fetch hf, .inl ⟨_, rfl⟩⟩
  · exact ⟨_, effect_touches_of_fetch hf, .inr ⟨_, rfl⟩⟩

/-- Settles O31, by the operations a step is made of: none writes the parameters. -/
theorem noStepChangesTheParameters : Obligations.NoStepChangesTheParameters := by
  intro s t h
  obtain ⟨u, hu, ⟨_, rfl⟩ | ⟨_, rfl⟩⟩ := step_touches h <;> exact hu.params_eq

/-- Settles O29, by the operations a step is made of: the flag rule and SEI alone write P. -/
theorem noStepWritesTheOtherFlags : Obligations.NoStepWritesTheOtherFlags := by
  intro s t h
  have hp : KeepsOtherFlags s.p t.p := by
    obtain ⟨u, hu, ⟨_, rfl⟩ | ⟨_, rfl⟩⟩ := step_touches h <;> exact hu.keepsOtherFlags
  obtain ⟨hbits, hI⟩ := hp
  refine ⟨hbits 6 ?_ ?_ ?_ ?_, hbits 5 ?_ ?_ ?_ ?_, hbits 4 ?_ ?_ ?_ ?_, hbits 3 ?_ ?_ ?_ ?_, hbits 0 ?_ ?_ ?_ ?_, hI⟩ <;>
    decide

/-! ### The invariant -/

/-- The VideoUnit's part of the invariant (R37, R40, R41, R225). -/
structure Ppu.Sound (u : Ppu) : Prop where
  vram     : Memory.wf Config.vramSize u.vram = true
  fb       : FrameBuffer.wf u.fb = true
  cycle    : u.cycle < 341
  scanline : u.scanline < 262
  latch    : u.toggle = .highNext → u.latchHi.toNat ≤ 0x3F

namespace Ppu.Sound

variable {u : Ppu}

theorem read (h : u.Sound) : u.read.2.Sound :=
  ⟨h.vram, h.fb, h.cycle, h.scanline, fun _ => Ppu.read_latchHi_le u⟩

theorem writeData (h : u.Sound) (v : Byte) : (u.writeData v).Sound :=
  ⟨Memory.wf_write _ _ _ v h.vram u.cur_lt, h.fb, h.cycle, h.scanline, fun _ => Ppu.writeData_latchHi_le v u⟩

theorem writeAddress (h : u.Sound) (v : Byte) : (u.writeAddress v).Sound where
  vram     := by rw [Ppu.writeAddress_vram]; exact h.vram
  fb       := by rw [Ppu.writeAddress_fb]; exact h.fb
  cycle    := by rw [Ppu.writeAddress_cycle]; exact h.cycle
  scanline := by rw [Ppu.writeAddress_scanline]; exact h.scanline
  latch    := Ppu.writeAddress_latchHi_le v u

theorem run (h : u.Sound) (q : Params) (n : Nat) : (u.run q n).1.Sound := by
  obtain ⟨hs, hf, hc⟩ := Ppu.run_sound q n u h.scanline h.fb
  obtain ⟨c, l, f, he⟩ := Ppu.run_same q n u
  rw [he] at hs hf hc ⊢
  exact ⟨h.vram, hf, hc, hs, h.latch⟩

end Ppu.Sound

/-- The invariant without the halt record: what the state stores is in form and in range. -/
structure Storage (s : State) : Prop where
  ram : Memory.wf Config.ramSize s.ram = true
  prg : Memory.wf Config.prgSize s.params.prg = true
  chr : Memory.wf Config.chrMaxSize s.params.chr = true
  ppu : s.ppu.Sound

theorem inv_iff (s : State) : Inv s ↔ Storage s ∧ HaltRecord s := by
  constructor
  · rintro ⟨ram, vram, prg, chr, fb, cycle, scanline, latch, halt⟩
    exact ⟨⟨ram, prg, chr, ⟨vram, fb, cycle, scanline, latch⟩⟩, halt⟩
  · rintro ⟨⟨ram, prg, chr, ⟨vram, fb, cycle, scanline, latch⟩⟩, halt⟩
    exact ⟨ram, vram, prg, chr, fb, cycle, scanline, latch, halt⟩

namespace Storage

variable {s t : State}

theorem setRam_write (h : Storage s) {k : Nat} (hk : k < Config.ramSize) (v : Byte) :
    Storage (s.setRam (s.ram.write k v)) :=
  ⟨Memory.wf_write _ _ k v h.ram hk, h.prg, h.chr, h.ppu⟩

theorem setPpu (h : Storage s) {u : Ppu} (hu : u.Sound) : Storage (s.setPpu u) := ⟨h.ram, h.prg, h.chr, hu⟩

theorem setReg (h : Storage s) (r : Reg) (v : Byte) : Storage (s.setReg r v) := by
  cases r <;> exact ⟨h.ram, h.prg, h.chr, h.ppu⟩

theorem memRead (h : Storage s) (a : Addr) : Storage (memRead a s).2 := by
  rcases memRead_state a s with he | he <;> rw [he]
  · exact h
  · exact h.setPpu h.ppu.read

theorem memWrite_goesOn (h : Storage s) {a : Addr} {v : Byte} (hw : memWrite a v s = .goesOn t) : Storage t := by
  rcases Machine.memWrite_goesOn hw with ⟨-, rfl⟩ | ⟨-, rfl⟩ | ⟨-, rfl⟩ | rfl
  · exact h.setRam_write (Nat.mod_lt _ (by decide)) v
  · exact h.setPpu (h.ppu.writeAddress v)
  · exact h.setPpu (h.ppu.writeData v)
  · exact h

/-- Every operation keeps what the state stores in form and in range. -/
theorem of_touches (hs : Storage s) (h : Touches s t) : Storage t := by
  induction h with
  | start => exact hs
  | reads _ a ih => exact ih.memRead a
  | writes _ a v hw ih => exact ih.memWrite_goesOn hw
  | romWrite _ a v hw ih =>
    obtain ⟨-, rfl⟩ := memWrite_halts hw
    exact ⟨ih.ram, ih.prg, ih.chr, ih.ppu⟩
  | register _ r v ih => exact ih.setReg r v
  | stackPointer _ _ ih | counter _ _ ih | flags _ _ ih | disables _ ih => exact ⟨ih.ram, ih.prg, ih.chr, ih.ppu⟩

end Storage

theorem haltRecord_of_none {s : State} (h : s.halted = none) : HaltRecord s := by
  unfold HaltRecord; rw [h]; trivial

theorem haltRecord_of_romWrite {s : State} {a : Addr} {v : Byte} (h : s.halted = some (.romWrite a v))
    (ha : 0x8000 ≤ a.toNat) : HaltRecord s := by
  unfold HaltRecord; rw [h]; exact ha

/-- From a running state, operations leave a true halt record. -/
theorem Touches.haltRecord {s t : State} (h : Touches s t) (hs : s.halted = none) : HaltRecord t := by
  rcases h.halted_cases with ht | ⟨a, v, ht, ha⟩
  · exact haltRecord_of_none (ht.trans hs)
  · exact haltRecord_of_romWrite ht ha

/-- Of an opcode byte without a row, the record of the halt is true (R253). -/
theorem haltRecord_of_fetchInstr_error {s u : State} {op : Byte} (h : fetchInstr s = (.error op, u)) :
    HaltRecord (u.setHalted (some (.unimplementedOpcode op s.pc))) := by
  obtain ⟨-, hop, hu⟩ := fetchInstr_error (s := s) (op := op) (by rw [h])
  have hpc : u.pc = s.pc + 1 := by
    rw [h] at hu
    rw [show u = (fetch s).2 from hu]
    simp [fetch]
  exact ⟨hop, hpc⟩

/-- Settles O32: each operation of a step keeps what the state stores, and the halt record is true at each way a step can end. -/
theorem stepKeepsInvariant : Obligations.StepKeepsInvariant := by
  intro s t hinv h
  obtain ⟨hs, -⟩ := (inv_iff s).1 hinv
  rw [inv_iff]
  obtain ⟨hrun, ⟨op, u, hf, rfl⟩ | ⟨i, u, hf, -, rfl⟩ | ⟨i, u, hf, hnone, rfl⟩⟩ := step_cases h
  case inr.inl =>
    have hi := effect_touches_of_fetch hf
    exact ⟨hs.of_touches hi, hi.haltRecord hrun⟩
  case inr.inr =>
    have hi := hs.of_touches (effect_touches_of_fetch hf)
    exact ⟨hi.setPpu (hi.ppu.run _ _), haltRecord_of_none hnone⟩
  case inl =>
    have hfetch : Touches s (fetchInstr s).2 := Touches.start.fetchesInstr
    rw [hf] at hfetch
    have hu := hs.of_touches hfetch
    exact ⟨⟨hu.ram, hu.prg, hu.chr, hu.ppu⟩, haltRecord_of_fetchInstr_error hf⟩

theorem launch_storage {l : Launch} (h : l.Ok) : Storage (State.launch l) where
  ram := h.ram
  prg := h.prg
  chr := h.chr
  ppu := ⟨h.vram, h.fb, (by decide : 0 < 341), (by decide : 0 < 262), fun _ => Nat.zero_le _⟩

/-- The launch inputs of the reset state are storable: no memory lists a byte. -/
theorem zeros_ok : Launch.zeros.Ok := ⟨rfl, rfl, rfl, rfl, rfl⟩

/-- Settles O33: the launch state stores the inputs as supplied, and reset is the launch state of `Launch.zeros`. -/
theorem launchMeetsInvariant : Obligations.LaunchMeetsInvariant := by
  have hl (l : Launch) (h : l.Ok) : Inv (State.launch l) := (inv_iff _).2 ⟨launch_storage h, haltRecord_of_none rfl⟩
  exact ⟨hl, hl _ zeros_ok⟩

/-- Settles O34: the launch state's fields are the inputs, and the address 0 has both halves 0. -/
theorem launchState : Obligations.LaunchState := fun _ =>
  ⟨rfl, rfl, rfl, rfl, rfl, rfl, rfl, rfl, rfl, rfl, rfl, rfl, rfl, rfl, rfl, rfl, rfl, fun _ => ⟨rfl, rfl, rfl⟩⟩

end Sys2Proof.Machine
end

section
/-! SUPPORT. What the instructions leave unchanged (spec/10_state.md R34), from one list of what an instruction can do. -/

namespace Sys2Proof.Machine

/-! ### What an instruction can do, by its kind -/

/-- The general register an instruction writes: its own for a load, INX, INY, DEX and DEY; none for every other instruction. -/
def destination : Instr → Option Reg
  | .ldaImm _ | .ldaZp _ | .ldaZpX _ | .ldaAbs _ _ | .ldaAbsX _ _ => some .A
  | .ldxImm _ | .ldxZp _ | .ldxAbs _ _ | .inx | .dex => some .X
  | .ldyImm _ | .ldyZp _ | .ldyZpX _ | .ldyAbs _ _ | .ldyAbsX _ _ | .iny | .dey => some .Y
  | .staZp _ | .staZpX _ | .staAbs _ _ | .staAbsX _ _ | .stxZp _ | .stxAbs _ _ | .styZp _ | .styZpX _ | .styAbs _ _
  | .jsr _ _ | .rts | .bpl _ | .bmi _ | .bvc _ | .bvs _ | .bcc _ | .bcs _ | .bne _ | .beq _ | .jmp _ _
  | .incZp _ | .incZpX _ | .incAbs _ _ | .incAbsX _ _ | .decZp _ | .decZpX _ | .decAbs _ _ | .decAbsX _ _
  | .sei => none

theorem destination_eq_A_iff (i : Instr) : destination i = some .A ↔
    (∃ v, i = .ldaImm v) ∨ (∃ d, i = .ldaZp d) ∨ (∃ d, i = .ldaZpX d) ∨ (∃ lo hi, i = .ldaAbs lo hi) ∨
      (∃ lo hi, i = .ldaAbsX lo hi) := by
  cases i <;> simp [destination]

theorem destination_eq_X_iff (i : Instr) : destination i = some .X ↔
    (∃ v, i = .ldxImm v) ∨ (∃ d, i = .ldxZp d) ∨ (∃ lo hi, i = .ldxAbs lo hi) ∨ i = .inx ∨ i = .dex := by
  cases i <;> simp [destination]

theorem destination_eq_Y_iff (i : Instr) : destination i = some .Y ↔
    (∃ v, i = .ldyImm v) ∨ (∃ d, i = .ldyZp d) ∨ (∃ d, i = .ldyZpX d) ∨ (∃ lo hi, i = .ldyAbs lo hi) ∨
      (∃ lo hi, i = .ldyAbsX lo hi) ∨ i = .iny ∨ i = .dey := by
  cases i <;> simp [destination]

/-- `t` is what an instruction of `i`'s kind can leave of the state `s`. -/
inductive Acts (i : Instr) (s : State) : State → Prop
  /-- A register takes a byte that no memory was read for, and the flags follow it. -/
  | loads (r : Reg) (v : Byte) (hd : destination i = some r) (hs : storeEa i s = none) : Acts i s (loadValue r v s)
  /-- A register takes the byte at the operand address, and the flags follow it. -/
  | loadsFrom (r : Reg) (ea : Addr) (hd : destination i = some r) (hs : storeEa i s = none)
      (hl : loadEa i s = some ea) : Acts i s (loadFrom r ea s)
  /-- A register is stored at the operand address. -/
  | stores (r : Reg) (ea : Addr) (hd : destination i = none) (hs : storeEa i s = some ea) (hl : loadEa i s = none) :
      Acts i s (storeTo r ea s).state
  /-- The byte at the operand address is modified. -/
  | modifies (f : Byte → Byte) (ea : Addr) (hd : destination i = none) (hs : storeEa i s = some ea)
      (hl : loadEa i s = some ea) : Acts i s (modifyMemory f ea s).state
  /-- A call. -/
  | calls (lo hi : Byte) (h : i = .jsr lo hi) : Acts i s (callTo (eaAbsolute lo hi) s).state
  /-- A return. -/
  | returns (h : i = .rts) : Acts i s (returnFromCall s)
  /-- PC takes an address, or keeps the one it has: a branch, or JMP. -/
  | jumps (a : Addr) (hd : destination i = none) (hs : storeEa i s = none) (h : i ≠ .sei) : Acts i s (s.setPC a)
  /-- SEI. -/
  | disables (h : i = .sei) : Acts i s (setIRQDisable s)

/-- A branch leaves the state but for PC, which takes the target or keeps its value (R172). -/
theorem branchWhen_eq_setPC (f : Flag) (b : Bool) (rel8 : Byte) (s : State) :
    branchWhen f b rel8 s = s.setPC (if s.flag f = b then branchTarget rel8 s else s.pc) := by
  unfold branchWhen; split <;> rfl

theorem Acts.branches {i : Instr} {s : State} (f : Flag) (b : Bool) (rel8 : Byte) (hd : destination i = none)
    (hs : storeEa i s = none) (h : i ≠ .sei) : Acts i s (branchWhen f b rel8 s) :=
  branchWhen_eq_setPC f b rel8 s ▸ .jumps _ hd hs h

/-- Every instruction does what its kind can do. -/
theorem effect_acts (i : Instr) (s : State) : Acts i s (effect i s) := by
  cases i
  case ldaImm | ldxImm | ldyImm | inx | iny | dex | dey => exact .loads _ _ rfl rfl
  case ldaZp | ldaZpX | ldaAbs | ldaAbsX | ldxZp | ldxAbs | ldyZp | ldyZpX | ldyAbs | ldyAbsX =>
    exact .loadsFrom _ _ rfl rfl rfl
  case staZp | staZpX | staAbs | staAbsX | stxZp | stxAbs | styZp | styZpX | styAbs => exact .stores _ _ rfl rfl rfl
  case incZp | incZpX | incAbs | incAbsX | decZp | decZpX | decAbs | decAbsX => exact .modifies _ _ rfl rfl rfl
  case jsr => exact .calls _ _ rfl
  case rts => exact .returns rfl
  case bpl | bmi | bvc | bvs | bcc | bcs | bne | beq => exact .branches _ _ _ rfl rfl (by simp)
  case jmp => exact .jumps _ rfl rfl (by simp)
  case sei => exact .disables rfl

theorem acts_of_exec {i : Instr} {s t : State} (h : exec i s = .next t) : Acts i s t :=
  effect_of_exec h ▸ effect_acts i s

/-! ### What each kind leaves -/

/-- INC and DEC leave what their read and then their write leave, with the flags following unless the write was fatal (R190, R258). -/
theorem modifyMemory_state_cases (f : Byte → Byte) (ea : Addr) (s : State) : ∃ v,
    (modifyMemory f ea s).state = (memWrite ea v (memRead ea s).2).state ∨
    (modifyMemory f ea s).state = setNZ v (memWrite ea v (memRead ea s).2).state := by
  refine ⟨f (memRead ea s).1, ?_⟩
  unfold modifyMemory
  dsimp only
  cases memWrite ea (f (memRead ea s).1) (memRead ea s).2 with
  | goesOn t => exact .inr rfl
  | halts t => exact .inl rfl

/-- A call's whole next state: it always goes on, for both slots are in work memory (R170). -/
theorem callTo_state (target : Addr) (s : State) : (callTo target s).state =
    (((s.setRam ((s.ram.write (0x100 + s.sp.toNat) (highByte s.pc)).write (0x100 + (s.sp + 1).toNat) (lowByte s.pc))).setSP
      (s.sp + 1 + 1)).setPC target) := by
  unfold callTo
  simp only [push_eq, Flow.andThen_goesOn]
  rfl

/-- A return's whole next state (R171). -/
theorem returnFromCall_eq (s : State) : returnFromCall s =
    (s.setSP (s.sp - 1 - 1)).setPC
      (word (s.ram.read (0x100 + (s.sp - 1 - 1).toNat)) (s.ram.read (0x100 + (s.sp - 1).toNat))) := by
  unfold returnFromCall
  simp only [pop_eq]
  rfl

section
variable (r : Reg) (ea : Addr) (s : State)

@[simp] theorem loadFrom_sp : (loadFrom r ea s).sp = s.sp := by simp [loadFrom]
@[simp] theorem loadFrom_pc : (loadFrom r ea s).pc = s.pc := by simp [loadFrom]
@[simp] theorem loadFrom_ram : (loadFrom r ea s).ram = s.ram := by simp [loadFrom]
@[simp] theorem loadFrom_halted : (loadFrom r ea s).halted = s.halted := by simp [loadFrom]
@[simp] theorem loadFrom_params : (loadFrom r ea s).params = s.params := by simp [loadFrom]
@[simp] theorem loadFrom_ppu : (loadFrom r ea s).ppu = (memRead ea s).2.ppu := by simp [loadFrom]
@[simp] theorem loadFrom_p : (loadFrom r ea s).p = nzByte s.p (memRead ea s).1 := by simp [loadFrom]

theorem loadFrom_reg_other {r r' : Reg} (h : r' ≠ r) : (loadFrom r ea s).reg r' = s.reg r' := by
  rw [loadFrom, loadValue_reg_other _ _ h, memRead_reg]

@[simp] theorem storeTo_state : (storeTo r ea s).state = (memWrite ea (s.reg r) s).state := rfl

end

section
variable (f : Byte → Byte) (ea : Addr) (s : State)

@[simp] theorem modifyMemory_sp : (modifyMemory f ea s).state.sp = s.sp := by
  obtain ⟨v, h | h⟩ := modifyMemory_state_cases f ea s <;> simp [h]
@[simp] theorem modifyMemory_pc : (modifyMemory f ea s).state.pc = s.pc := by
  obtain ⟨v, h | h⟩ := modifyMemory_state_cases f ea s <;> simp [h]
@[simp] theorem modifyMemory_params : (modifyMemory f ea s).state.params = s.params := by
  obtain ⟨v, h | h⟩ := modifyMemory_state_cases f ea s <;> simp [h]
@[simp] theorem modifyMemory_reg (r : Reg) : (modifyMemory f ea s).state.reg r = s.reg r := by
  obtain ⟨v, h | h⟩ := modifyMemory_state_cases f ea s <;> simp [h]

/-- What INC and DEC leave of the two memories and the VideoUnit is what their write leaves after their read. -/
theorem modifyMemory_stored : ∃ v,
    (modifyMemory f ea s).state.ram = (memWrite ea v (memRead ea s).2).state.ram ∧
    (modifyMemory f ea s).state.ppu = (memWrite ea v (memRead ea s).2).state.ppu := by
  obtain ⟨v, h | h⟩ := modifyMemory_state_cases f ea s <;> exact ⟨v, by simp [h], by simp [h]⟩

theorem modifyMemory_p_getLsbD {k : Nat} (hk : k < 8) (h1 : k ≠ 1) (h7 : k ≠ 7) :
    (modifyMemory f ea s).state.p.getLsbD k = s.p.getLsbD k := by
  obtain ⟨v, h | h⟩ := modifyMemory_state_cases f ea s
  · simp [h]
  · simp [h, nzByte_getLsbD_other hk h1 h7]

end

/-! ### The registers -/

@[simp] theorem State.reg_A (s : State) : s.reg .A = s.a := rfl
@[simp] theorem State.reg_X (s : State) : s.reg .X = s.x := rfl
@[simp] theorem State.reg_Y (s : State) : s.reg .Y = s.y := rfl

namespace Acts

variable {i : Instr} {s t : State}

/-- A general register that is not the destination keeps its value (R21 to R23). -/
theorem reg_eq (h : Acts i s t) {r : Reg} (hr : destination i ≠ some r) : t.reg r = s.reg r := by
  cases h with
  | loads r' v hd _ =>
    have hne : r ≠ r' := fun he => hr (he ▸ hd)
    exact loadValue_reg_other s v hne
  | loadsFrom r' ea hd _ _ =>
    have hne : r ≠ r' := fun he => hr (he ▸ hd)
    exact loadFrom_reg_other ea s hne
  | stores r' ea _ _ _ => exact memWrite_reg ea (s.reg r') s r
  | modifies f ea _ _ _ => exact modifyMemory_reg f ea s r
  | calls lo hi _ => rw [callTo_state]; cases r <;> rfl
  | returns _ => rw [returnFromCall_eq]; cases r <;> rfl
  | jumps a _ _ _ => cases r <;> rfl
  | disables _ => cases r <;> rfl

/-- SP changes by a call or a return only (R24). -/
theorem sp_eq (h : Acts i s t) (hj : ∀ lo hi, i ≠ .jsr lo hi) (hr : i ≠ .rts) : t.sp = s.sp := by
  cases h with
  | loads r v _ _ => exact loadValue_sp s r v
  | loadsFrom r ea _ _ _ => exact loadFrom_sp r ea s
  | stores r ea _ _ _ => exact memWrite_sp ea (s.reg r) s
  | modifies f ea _ _ _ => exact modifyMemory_sp f ea s
  | calls lo hi h => exact absurd h (hj lo hi)
  | returns h => exact absurd h hr
  | jumps a _ _ _ => rfl
  | disables _ => rfl

end Acts

/-- Settles O30: a register that is not the destination of the instruction is unchanged. -/
theorem registersHaveTheirWriters : Obligations.RegistersHaveTheirWriters := by
  intro i s t h
  have hacts := acts_of_exec h
  have hdest (r : Reg) (hne : t.reg r ≠ s.reg r) : destination i = some r := by
    by_contra hd
    exact hne (hacts.reg_eq hd)
  refine ⟨fun hne => (destination_eq_A_iff i).1 (hdest .A hne), fun hne => (destination_eq_X_iff i).1 (hdest .X hne),
    fun hne => (destination_eq_Y_iff i).1 (hdest .Y hne), fun hne => ?_⟩
  by_contra hno
  rw [not_or] at hno
  exact hne (hacts.sp_eq (fun lo hi he => hno.1 ⟨lo, hi, he⟩) hno.2)

/-! ### Loads and register steps -/

/-- What an instruction with a destination leaves unchanged, but for the registers. -/
theorem Acts.load_frame {i : Instr} {s t : State} {r : Reg} (h : Acts i s t) (hd : destination i = some r) :
    t.sp = s.sp ∧ t.pc = s.pc ∧ t.halted = s.halted ∧ t.params = s.params ∧
    (∀ k, k < 8 → k ≠ 1 → k ≠ 7 → t.p.getLsbD k = s.p.getLsbD k) ∧
    t.ram = s.ram ∧ t.ppu.vram = s.ppu.vram ∧
    t.ppu.cycle = s.ppu.cycle ∧ t.ppu.scanline = s.ppu.scanline ∧ t.ppu.fb = s.ppu.fb ∧
    t.ppu.toggle = s.ppu.toggle ∧
    ((∀ a, loadEa i s = some a → ¬ Stated.IsDataPort a) → t.ppu = s.ppu) := by
  have hflags (v : Byte) (k : Nat) (hk : k < 8) (h1 : k ≠ 1) (h7 : k ≠ 7) : (nzByte s.p v).getLsbD k = s.p.getLsbD k :=
    nzByte_getLsbD_other hk h1 h7
  cases h with
  | loads r v _ _ => simpa using hflags v
  | loadsFrom r ea _ _ hl =>
    have hppu (hport : ∀ a, loadEa i s = some a → ¬ Stated.IsDataPort a) : (memRead ea s).2.ppu = s.ppu := by
      rw [memRead_of_not_dataPort s (hport ea hl)]
    have hboth := And.intro (hflags (memRead ea s).1) hppu
    simpa using hboth
  | stores _ _ hd' _ _ | modifies _ _ hd' _ _ | jumps _ hd' _ _ => rw [hd] at hd'; cases hd'
  | calls lo hi h | returns h | disables h => subst h; cases hd

/-- Settles O26: each of these instructions has a destination register, and changes it, the flags and, at the data port, the latch and the buffer. -/
theorem loadAndIndexStepFrame : Obligations.LoadAndIndexStepFrame := by
  intro i s t h hi
  have hacts := acts_of_exec h
  obtain ⟨r, hd⟩ : ∃ r, destination i = some r := by
    rcases hi with ⟨_, rfl⟩ | ⟨_, rfl⟩ | ⟨_, rfl⟩ | ⟨_, _, rfl⟩ | ⟨_, _, rfl⟩ | ⟨_, rfl⟩ | ⟨_, rfl⟩ | ⟨_, _, rfl⟩ |
      ⟨_, rfl⟩ | ⟨_, rfl⟩ | ⟨_, rfl⟩ | ⟨_, _, rfl⟩ | ⟨_, _, rfl⟩ | rfl | rfl | rfl | rfl <;> exact ⟨_, rfl⟩
  have hother {r r' : Reg} (hr : destination i = some r) (hne : r ≠ r') : t.reg r' = s.reg r' :=
    hacts.reg_eq (by simp [hr, hne])
  obtain ⟨hsp, hpc, hhalted, hparams, hp, hram, hvram, hcycle, hscanline, hfb, htoggle, hppu⟩ := hacts.load_frame hd
  refine ⟨hsp, hpc, hhalted, hparams, hp, fun k => by rw [hram], fun k => by rw [hvram], hcycle, hscanline, hfb, htoggle,
    hppu, fun hA => ?_, fun hX => ?_, fun hY => ?_⟩
  · have hd := (destination_eq_A_iff i).2 hA
    exact ⟨hother (r' := .X) hd (by decide), hother (r' := .Y) hd (by decide)⟩
  · have hd := (destination_eq_X_iff i).2 hX
    exact ⟨hother (r' := .A) hd (by decide), hother (r' := .Y) hd (by decide)⟩
  · have hd := (destination_eq_Y_iff i).2 hY
    exact ⟨hother (r' := .A) hd (by decide), hother (r' := .X) hd (by decide)⟩

/-! ### Stores, INC and DEC -/

/-- The model's latch address is the rule's (R225). -/
theorem Ppu.cur_toNat_eq_stated (u : Ppu) : u.cur.toNat = Stated.cur u := u.cur_toNat

/-- After a data-port read the latch holds the next address (R226, R230). -/
theorem Ppu.read_cur (u : Ppu) : u.read.2.cur.toNat = Stated.succ14 (Stated.cur u) :=
  (Ppu.cur_advance _).trans (congrArg Stated.succ14 u.cur_toNat)

/-- An instruction that stores at `ea` is a store of a register, or an INC or DEC, which reads there first. -/
theorem Acts.store_cases {i : Instr} {s t : State} {ea : Addr} (h : Acts i s t) (hea : storeEa i s = some ea) :
    (loadEa i s = none ∧ ∃ r, t = (storeTo r ea s).state) ∨
    (loadEa i s = some ea ∧ ∃ f, t = (modifyMemory f ea s).state) := by
  cases h with
  | stores r ea' _ hs hl => cases hea.symm.trans hs; exact .inl ⟨hl, r, rfl⟩
  | modifies f ea' _ hs hl => cases hea.symm.trans hs; exact .inr ⟨hl, f, rfl⟩
  | loads _ _ _ hs | loadsFrom _ _ _ hs _ | jumps _ _ hs _ => rw [hea] at hs; cases hs
  | calls _ _ h | returns h | disables h => subst h; cases hea

section
variable {i : Instr} {s t : State} {ea : Addr}

/-- What a store, INC or DEC leaves of the registers and the parameters. -/
theorem Acts.store_frame (h : Acts i s t) (hea : storeEa i s = some ea) :
    (∀ r, t.reg r = s.reg r) ∧ t.sp = s.sp ∧ t.pc = s.pc ∧ t.params = s.params ∧
    (∀ k, k < 8 → k ≠ 1 → k ≠ 7 → t.p.getLsbD k = s.p.getLsbD k) ∧ (loadEa i s = none → t.p = s.p) := by
  rcases h.store_cases hea with ⟨-, r, rfl⟩ | ⟨hl, f, rfl⟩
  · simp
  · exact ⟨fun r => modifyMemory_reg f ea s r, modifyMemory_sp f ea s, modifyMemory_pc f ea s, modifyMemory_params f ea s,
      fun _ => modifyMemory_p_getLsbD f ea s, fun hn => by rw [hl] at hn; cases hn⟩

/-- What a store, INC or DEC leaves in the memories is what its write leaves, of the state before or after its read. -/
theorem Acts.store_writes (h : Acts i s t) (hea : storeEa i s = some ea) : ∃ v u,
    t.ram = (memWrite ea v u).state.ram ∧ t.ppu = (memWrite ea v u).state.ppu ∧
    ((loadEa i s = none ∧ u = s) ∨ (loadEa i s = some ea ∧ u = (memRead ea s).2)) := by
  rcases h.store_cases hea with ⟨hl, r, rfl⟩ | ⟨hl, f, rfl⟩
  · exact ⟨s.reg r, s, rfl, rfl, .inl ⟨hl, rfl⟩⟩
  · obtain ⟨v, hram, hppu⟩ := modifyMemory_stored f ea s
    exact ⟨v, _, hram, hppu, .inr ⟨hl, rfl⟩⟩

/-- A store, INC or DEC leaves every work-memory byte but the one its address names (R60). -/
theorem Acts.store_ram_read (h : Acts i s t) (hea : storeEa i s = some ea) {k : Nat}
    (hk : ¬ (ea.toNat < 0x2000 ∧ k = ea.toNat % 0x800)) : t.ram.read k = s.ram.read k := by
  obtain ⟨v, u, hram, -, ⟨-, rfl⟩ | ⟨-, rfl⟩⟩ := h.store_writes hea <;> rw [hram, memWrite_ram_read v hk]
  rw [memRead_ram]

/-- At the data port a store writes at the latch address, INC and DEC at the next one; every other VideoUnit byte is left (R226, R229). -/
theorem Acts.store_vram_read (h : Acts i s t) (hea : storeEa i s = some ea) {k : Nat}
    (hstore : Stated.IsDataPort ea → loadEa i s = none → k ≠ Stated.cur s.ppu)
    (hmodify : Stated.IsDataPort ea → loadEa i s = some ea → k ≠ Stated.succ14 (Stated.cur s.ppu)) :
    t.ppu.vram.read k = s.ppu.vram.read k := by
  obtain ⟨v, u, -, hppu, ⟨hl, rfl⟩ | ⟨hl, rfl⟩⟩ := h.store_writes hea <;> rw [hppu]
  · exact memWrite_vram_read v fun hd => Ppu.cur_toNat_eq_stated u.ppu ▸ hstore hd hl
  · rw [memWrite_vram_read, memRead_vram]
    intro hd
    rw [memRead_of_dataPort s hd, State.setPpu_ppu, Ppu.read_cur]
    exact hmodify hd hl

/-- Outside the data port a store, INC or DEC changes the VideoUnit by its write alone. -/
theorem Acts.store_ppu_of_not_dataPort (h : Acts i s t) (hea : storeEa i s = some ea) (hd : ¬ Stated.IsDataPort ea) :
    ∃ v, t.ppu = (memWrite ea v s).state.ppu := by
  obtain ⟨v, u, -, hppu, ⟨-, rfl⟩ | ⟨-, rfl⟩⟩ := h.store_writes hea
  · exact ⟨v, hppu⟩
  · rw [memRead_of_not_dataPort s hd] at hppu
    exact ⟨v, hppu⟩

/-- A store, INC or DEC leaves the counters and the picture. -/
theorem Acts.store_counters (h : Acts i s t) (hea : storeEa i s = some ea) :
    t.ppu.cycle = s.ppu.cycle ∧ t.ppu.scanline = s.ppu.scanline ∧ t.ppu.fb = s.ppu.fb := by
  obtain ⟨v, u, -, hppu, ⟨-, rfl⟩ | ⟨-, rfl⟩⟩ := h.store_writes hea <;> simp [hppu]

end

/-- Settles O27: the registers are left by every write, and the memories are as the one write at `ea` leaves them. -/
theorem storeFrame : Obligations.StoreFrame := by
  intro i s t ea hea h
  have hacts := acts_of_exec h
  obtain ⟨hreg, hsp, hpc, hparams, hflags, hp⟩ := hacts.store_frame hea
  have hbus (a : Addr) (hwindow : ¬ (0x2000 ≤ a.toNat ∧ a.toNat < 0x4000))
      (halias : ¬ (ea.toNat < 0x2000 ∧ a.toNat < 0x2000 ∧ a.toNat % 0x800 = ea.toNat % 0x800)) :
      (memRead a t).1 = (memRead a s).1 :=
    memRead_fst_congr
      (fun ha => hacts.store_ram_read hea fun ⟨he, hcell⟩ => halias ⟨he, ha, hcell⟩)
      (fun hw => absurd hw hwindow) hparams
  refine ⟨hreg .A, hreg .X, hreg .Y, hsp, hpc, hparams, hflags, hp, hbus, fun k => hacts.store_vram_read hea,
    fun hd => ?_, fun hd ha => ?_, hacts.store_counters hea⟩
  · obtain ⟨v, hppu⟩ := hacts.store_ppu_of_not_dataPort hea hd
    rw [hppu, memWrite_readBuffer]
  · obtain ⟨v, hppu⟩ := hacts.store_ppu_of_not_dataPort hea hd
    rw [hppu, memWrite_ppu_of_not_acting v hd ha]

/-! ### Control transfer and SEI -/

/-- What a control transfer or SEI leaves of everything but work memory, which only a call writes. -/
theorem Acts.control_frame {i : Instr} {s t : State} (h : Acts i s t) (hd : destination i = none)
    (hs : storeEa i s = none) :
    (∀ r, t.reg r = s.reg r) ∧ t.ppu = s.ppu ∧ t.params = s.params ∧ t.halted = s.halted ∧
    (i ≠ .sei → t.p = s.p) ∧ (i = .sei → t.pc = s.pc) ∧ ((∀ lo hi, i ≠ .jsr lo hi) → t.ram = s.ram) := by
  have hreg (r : Reg) : t.reg r = s.reg r := h.reg_eq (by simp [hd])
  refine ⟨hreg, ?_⟩
  cases h with
  | loads _ _ hd' _ | loadsFrom _ _ hd' _ _ => rw [hd] at hd'; cases hd'
  | stores _ _ _ hs' _ | modifies _ _ _ hs' _ => rw [hs] at hs'; cases hs'
  | calls lo hi h => simp [callTo_state, h]
  | returns h => simp [returnFromCall_eq, h]
  | jumps a _ _ h => simp [h]
  | disables h => subst h; exact ⟨rfl, rfl, rfl, fun hne => absurd rfl hne, fun _ => rfl, fun _ => rfl⟩

/-- A call leaves every byte of work memory but the two stack slots (R121, R170). -/
theorem callTo_ram_read (target : Addr) (s : State) {k : Nat} (h1 : k ≠ (stackAddr s).toNat)
    (h2 : k ≠ (stackAddr { s with sp := s.sp + 1 }).toNat) : (callTo target s).state.ram.read k = s.ram.read k := by
  rw [stackAddr_toNat] at h1 h2
  rw [callTo_state]
  exact (Memory.read_write_other _ _ _ _ h2).trans (Memory.read_write_other _ _ _ _ h1)

/-- Settles O28: none of these has a destination register or stores at an operand address, and only a call writes work memory. -/
theorem controlFrame : Obligations.ControlFrame := by
  intro i s t h hkind
  have hacts := acts_of_exec h
  obtain ⟨hd, hs⟩ : destination i = none ∧ storeEa i s = none := by
    rcases hkind with ⟨_, _, rfl⟩ | rfl | ⟨_, rfl⟩ | ⟨_, rfl⟩ | ⟨_, rfl⟩ | ⟨_, rfl⟩ | ⟨_, rfl⟩ | ⟨_, rfl⟩ | ⟨_, rfl⟩ |
      ⟨_, rfl⟩ | ⟨_, _, rfl⟩ | rfl <;> exact ⟨rfl, rfl⟩
  obtain ⟨hreg, hppu, hparams, hhalted, hp, hpc, hram⟩ := hacts.control_frame hd hs
  refine ⟨hreg .A, hreg .X, hreg .Y, hppu, hparams, hhalted, hp, hpc, hacts.sp_eq, fun a hslots => ?_⟩
  refine memRead_fst_congr (fun ha => ?_) (fun _ => by rw [hppu]) hparams
  by_cases hj : ∃ lo hi, i = .jsr lo hi
  · obtain ⟨h1, h2⟩ := hslots hj ha
    obtain ⟨lo, hi, rfl⟩ := hj
    have ht : t = (callTo (eaAbsolute lo hi) s).state := (effect_of_exec h).symm
    rw [ht, callTo_ram_read _ s h1 h2]
  · rw [hram fun lo hi he => hj ⟨lo, hi, he⟩]

end Sys2Proof.Machine
end

section
/-! SUPPORT. The stack's two operations as whole results (spec/40_execution_cycle.md R121, R122), and the length of a frame (spec/47_video_unit.md R234). -/

namespace Sys2Proof.Machine

/-- A byte stepped up is the natural one more, modulo 256. -/
theorem byte_add_one (b : Byte) : b + 1 = BitVec.ofNat 8 ((b.toNat + 1) % 256) := by
  apply BitVec.eq_of_toNat_eq; simp

/-- A byte stepped down is the natural 255 more, modulo 256. -/
theorem byte_sub_one (b : Byte) : b - 1 = BitVec.ofNat 8 ((b.toNat + 255) % 256) := by
  apply BitVec.eq_of_toNat_eq
  simp [BitVec.toNat_sub, Nat.add_comm]

/-- Settles O39: both slots are in work memory, and SP steps modulo 256. -/
theorem pushAndPop : Obligations.PushAndPop := by
  refine ⟨fun v s => ?_, fun s => ?_⟩
  · rw [push_eq, byte_add_one]; rfl
  · rw [pop_eq, byte_sub_one, BitVec.toNat_ofNat, Nat.mod_mod]; rfl

/-- One scanline: the place stays, or goes back by a frame exactly when a frame is signalled (R234). -/
theorem Ppu.line_place (q : Params) (u : Ppu) (hs : u.scanline < 262) (hc : 341 ≤ u.cycle) :
    (u.line q).1.scanline < 262 ∧
    ((u.line q).2 = true → Stated.place (u.line q).1 + 89342 = Stated.place u) ∧
    ((u.line q).2 = false → Stated.place (u.line q).1 = Stated.place u) := by
  simp only [Stated.place, Ppu.line_scanline, Ppu.line_cycle, Ppu.line_snd, decide_eq_true_eq, decide_eq_false_iff_not]
  split_ifs <;> omega

/-- `r` is the VideoUnit and signal that all of `u`'s accumulated cycles come to: the counters in range, the place modulo a frame, a signal exactly for places from a frame up. -/
def Ppu.FrameTime (u : Ppu) (r : Ppu × Bool) : Prop :=
  r.1.cycle < 341 ∧ r.1.scanline < 262 ∧ Stated.place r.1 = Stated.place u % 89342 ∧
    (r.2 = true ↔ 89342 ≤ Stated.place u)

theorem Ppu.frameTime_of_cycle_lt {u : Ppu} (hs : u.scanline < 262) (hc : u.cycle < 341) : u.FrameTime (u, false) := by
  have hplace : Stated.place u < 89342 := by unfold Stated.place; omega
  exact ⟨hc, hs, (Nat.mod_eq_of_lt hplace).symm, by simp [hplace]⟩

/-- A scanline that passes before the rest of the loop does not change what the loop comes to. -/
theorem Ppu.FrameTime.line {q : Params} {u : Ppu} {r : Ppu × Bool} (hs : u.scanline < 262) (hc : 341 ≤ u.cycle)
    (h : (u.line q).1.FrameTime r) : u.FrameTime (r.1, (u.line q).2 || r.2) := by
  obtain ⟨hcycle, hscanline, hplace, hsignal⟩ := h
  obtain ⟨-, hframe, hstay⟩ := Ppu.line_place q u hs hc
  refine ⟨hcycle, hscanline, ?_⟩
  cases hb : (u.line q).2 with
  | true =>
    rw [← hframe hb, Nat.add_mod_right]
    exact ⟨hplace, by simp⟩
  | false =>
    rw [← hstay hb, Bool.false_or]
    exact ⟨hplace, hsignal⟩

/-- The loop, given all the fuel it needs, spends all accumulated cycles (R234). -/
theorem Ppu.lines_frameTime (q : Params) (fuel : Nat) (u : Ppu) (hs : u.scanline < 262) (hf : u.cycle / 341 ≤ fuel) :
    u.FrameTime (Ppu.lines q fuel u) := by
  induction fuel generalizing u with
  | zero => exact Ppu.frameTime_of_cycle_lt hs (by omega)
  | succ fuel ih =>
    rw [Ppu.lines_succ]
    split_ifs with hc
    · have hs' := (Ppu.line_place q u hs hc).1
      exact (ih _ hs' (by rw [Ppu.line_cycle]; omega)).line hs hc
    · exact Ppu.frameTime_of_cycle_lt hs (by omega)

/-- Settles O51: the place after `addCycles n` is `n` further, and the loop takes whole frames off it. -/
theorem runKeepsFrameTime : Obligations.RunKeepsFrameTime := by
  intro q n u _ hs
  have hplace : Stated.place (u.addCycles n) = Stated.place u + n := (Nat.add_assoc _ _ _).symm
  rw [Ppu.run_eq, ← hplace]
  exact Ppu.lines_frameTime q _ (u.addCycles n) hs le_rfl

end Sys2Proof.Machine
end

section
/-! SUPPORT. The Bus (spec/20_memory.md): the machine's reads and writes are the rules' own, work memory reads back through its mirrors, and which instruction can be fatal in program ROM (spec/60_exceptions.md R251). -/

namespace Sys2Proof.Machine

/-! ### The VideoUnit's ports are the rules' -/

/-- Setting the latch is the rule's `setcur` (R225). -/
theorem Ppu.setCur_eq_stated (u : Ppu) (a : Addr) : u.setCur a = Stated.atAddress u a.toNat := by
  have hhi : a.extractLsb' 8 8 = BitVec.ofNat 8 (a.toNat / 256) := by
    apply BitVec.eq_of_toNat_eq; simp [Nat.shiftRight_eq_div_pow]
  have hlo : a.extractLsb' 0 8 = BitVec.ofNat 8 (a.toNat % 256) := by
    apply BitVec.eq_of_toNat_eq; simp
  rw [Ppu.setCur, hhi, hlo, Stated.atAddress]

/-- The latch advances to the address that follows (R230). -/
theorem Ppu.advance_eq_stated (u : Ppu) : u.advance = Stated.atAddress u (Stated.succ14 (Stated.cur u)) := by
  rw [Ppu.advance, Ppu.setCur_eq_stated, toNat_succ14, Ppu.cur_toNat_eq_stated, Stated.succ14]

/-- What a data-port read leaves of the VideoUnit (R226). -/
theorem Ppu.read_snd_eq_stated (u : Ppu) : u.read.2 = Stated.afterPortRead u := by
  rw [Ppu.read, Ppu.cur_toNat_eq_stated]
  exact Ppu.advance_eq_stated _

/-- What a data-port write leaves of the VideoUnit (R229). -/
theorem Ppu.writeData_eq_stated (v : Byte) (u : Ppu) : u.writeData v = Stated.afterPortWrite u v := by
  rw [Ppu.writeData, Ppu.cur_toNat_eq_stated]
  exact Ppu.advance_eq_stated _

/-- What an address-port write leaves of the VideoUnit: either half of the pair (R227). -/
theorem Ppu.writeAddress_eq_stated (v : Byte) (u : Ppu) : u.writeAddress v = Stated.afterAddressWrite u v := by
  unfold Ppu.writeAddress Stated.afterAddressWrite
  cases hu : u.toggle with
  | highNext => rfl
  | lowNext =>
    dsimp only
    rw [Ppu.setCur_eq_stated, Ppu.cur_toNat]
    rfl

/-! ### Reads and writes of the Bus are the rules' -/

/-- The state a read leaves: the data port's side effects and no other (R56). -/
theorem memRead_snd (a : Addr) (s : State) : (memRead a s).2 = Stated.afterRead s a := by
  unfold Stated.afterRead
  split
  case isTrue ha => rw [memRead_of_dataPort s ha, Ppu.read_snd_eq_stated]; rfl
  case isFalse ha => exact memRead_of_not_dataPort s ha

/-- The two program-ROM addresses that differ in bit 14 alone are mirrors of one cell (R55). -/
theorem programRom_mirror_toNat {a : Addr} (h : 0x8000 ≤ a.toNat) :
    0x8000 ≤ (a ^^^ 0x4000).toNat ∧ ((a ^^^ 0x4000).toNat - 0x8000) % 0x4000 = (a.toNat - 0x8000) % 0x4000 := by
  have hlow : (a.toNat ^^^ 0x4000) % 2 ^ 14 = a.toNat % 2 ^ 14 := Nat.xor_mod_two_pow.trans (Nat.xor_zero _)
  have hhigh : (a.toNat ^^^ 0x4000) / 2 ^ 15 = a.toNat / 2 ^ 15 := Nat.xor_div_two_pow.trans (Nat.xor_zero _)
  rw [BitVec.toNat_xor, show (0x4000 : Addr).toNat = 0x4000 from rfl]
  omega

/-- A read of program ROM (R55). -/
theorem memRead_programRom {a : Addr} (h : 0x8000 ≤ a.toNat) (s : State) :
    memRead a s = (s.params.prg.read ((a.toNat - 0x8000) % 0x4000), s) := by
  rw [memRead, regionOf_programRom h, prgCell_eq a h]

/-- Settles O36: the byte and the state region by region; the two mirrors of program ROM name one cell. -/
theorem busRead : Obligations.BusRead := by
  intro a s
  refine ⟨Prod.ext (memRead_fst s a) (memRead_snd a s), memRead_of_not_dataPort s, fun ha => ?_⟩
  obtain ⟨hmirror, hcell⟩ := programRom_mirror_toNat ha
  rw [memRead_programRom ha, memRead_programRom hmirror, hcell]

/-- A write below program ROM goes on (R59 to R61). -/
theorem memWrite_below_programRom {a : Addr} (h : a.toNat < 0x8000) (v : Byte) (s : State) :
    memWrite a v s = .goesOn (Stated.afterWrite s a v) := by
  unfold Stated.afterWrite
  rcases memWrite_cases a v s with ⟨h1, hw⟩ | ⟨h2, h4, h6, hw⟩ | ⟨h2, h4, h7, hw⟩ | ⟨h2, h4, h6, h7, hw⟩ |
    ⟨h4, -, hw⟩ | ⟨h8, -⟩
  · rw [hw, if_pos h1]; rfl
  · rw [hw, if_neg (by omega), if_pos ⟨h2, h4, h6⟩, Ppu.writeAddress_eq_stated]; rfl
  · rw [hw, if_neg (by omega), if_neg (by omega), if_pos ⟨h2, h4, h7⟩, Ppu.writeData_eq_stated]; rfl
  · rw [hw, if_neg (by omega), if_neg (by omega), if_neg (by omega)]
  · rw [hw, if_neg (by omega), if_neg (by omega), if_neg (by omega)]
  · omega

/-- A write to program ROM is fatal (R62). -/
theorem memWrite_programRom {a : Addr} (h : 0x8000 ≤ a.toNat) (v : Byte) (s : State) :
    memWrite a v s = .halts (Stated.haltedBy s (.romWrite a v)) := by
  rw [memWrite, regionOf_programRom h]; rfl

/-- Settles O37: below program ROM the write goes on, from there up it is fatal. -/
theorem busWrite : Obligations.BusWrite := by
  intro a v s
  split
  case isTrue h => exact memWrite_below_programRom h v s
  case isFalse h => exact memWrite_programRom (Nat.le_of_not_lt h) v s

/-- A fetch returns the byte a Bus read of PC does (R71, R110). -/
theorem fetch_fst (s : State) : (fetch s).1 = (memRead s.pc s).1 := rfl

/-- Settles O38: both mirrors name the work-memory cell that was written. -/
theorem mirrorsReadBackTheWrite : Obligations.MirrorsReadBackTheWrite := by
  intro a b v s ha hb hcell
  have hread : (s.ram.write (a.toNat % 0x800) v).read (b.toNat % 0x800) = v := by
    rw [hcell, Memory.read_write_same]
  refine ⟨_, memWrite_workMemory ha v s, ?_, ?_⟩
  · rw [memRead_workMemory hb]; exact hread
  · rw [fetch_fst, memRead_workMemory hb]; exact hread

/-! ### Which instructions can be fatal -/

/-- A write leaves the halt record, or records itself at an address in program ROM (R62). -/
theorem memWrite_halted_cases (a : Addr) (v : Byte) (s : State) :
    (memWrite a v s).state.halted = s.halted ∨
    (0x8000 ≤ a.toNat ∧ (memWrite a v s).state.halted = some (.romWrite a v)) := by
  cases hw : memWrite a v s with
  | goesOn t => rcases memWrite_goesOn hw with ⟨-, rfl⟩ | ⟨-, rfl⟩ | ⟨-, rfl⟩ | rfl <;> exact .inl rfl
  | halts t => obtain ⟨ha, rfl⟩ := memWrite_halts hw; exact .inr ⟨ha, rfl⟩

/-- A store, INC or DEC leaves the halt record as its one write at `ea` does. -/
theorem Acts.store_halted {i : Instr} {s t : State} {ea : Addr} (h : Acts i s t) (hea : storeEa i s = some ea) :
    t.halted = s.halted ∨ ∃ v, 0x8000 ≤ ea.toNat ∧ t.halted = some (.romWrite ea v) := by
  rcases h.store_cases hea with ⟨-, r, rfl⟩ | ⟨-, f, rfl⟩
  · exact (memWrite_halted_cases ea (s.reg r) s).imp_right fun hw => ⟨_, hw⟩
  · obtain ⟨v, hv⟩ := modifyMemory_state_cases f ea s
    have hhalted : (modifyMemory f ea s).state.halted = (memWrite ea v (memRead ea s).2).state.halted := by
      rcases hv with hv | hv <;> rw [hv]; rfl
    rw [hhalted, ← memRead_halted ea s]
    exact (memWrite_halted_cases ea v _).imp_right fun hw => ⟨v, hw⟩

/-- An instruction that stores at no operand address leaves the halt record (R251). -/
theorem Acts.halted_eq {i : Instr} {s t : State} (h : Acts i s t) (hs : storeEa i s = none) : t.halted = s.halted := by
  cases hd : destination i with
  | some r => obtain ⟨-, -, hhalted, -⟩ := h.load_frame hd; exact hhalted
  | none => obtain ⟨-, -, -, hhalted, -⟩ := h.control_frame hd hs; exact hhalted

/-- The eight absolute forms that write memory (R251). -/
def AbsoluteStore (i : Instr) : Prop :=
  (∃ lo hi, i = .staAbs lo hi) ∨ (∃ lo hi, i = .staAbsX lo hi) ∨ (∃ lo hi, i = .stxAbs lo hi) ∨
  (∃ lo hi, i = .styAbs lo hi) ∨ (∃ lo hi, i = .incAbs lo hi) ∨ (∃ lo hi, i = .incAbsX lo hi) ∨
  (∃ lo hi, i = .decAbs lo hi) ∨ (∃ lo hi, i = .decAbsX lo hi)

/-- An instruction that stores outside page zero is one of the absolute forms: the other modes stay inside it (R115, R116). -/
theorem absoluteStore_of_storeEa {i : Instr} {s : State} {ea : Addr} (hea : storeEa i s = some ea)
    (hpage : 0x100 ≤ ea.toNat) : AbsoluteStore i := by
  cases i
  case staAbs | staAbsX | stxAbs | styAbs | incAbs | incAbsX | decAbs | decAbsX => simp [AbsoluteStore]
  case staZp d8 | stxZp d8 | styZp d8 | incZp d8 | decZp d8 =>
    cases hea
    rw [eaZeroPage_toNat] at hpage
    exact absurd d8.isLt (by omega)
  case staZpX | styZpX | incZpX | decZpX =>
    cases hea
    rw [eaZeroPageX_toNat] at hpage
    omega
  all_goals cases hea

/-- Settles O7: the halt record is that of the one write at the operand address, and only an absolute mode reaches program ROM. -/
theorem romWriteOnlyByAbsoluteStores : Obligations.RomWriteOnlyByAbsoluteStores := by
  intro i s
  refine ⟨effect i s, exec_eq_effect i s, ?_⟩
  have hacts := effect_acts i s
  cases hea : storeEa i s with
  | none => exact .inl (hacts.halted_eq hea)
  | some ea =>
    refine (hacts.store_halted hea).imp_right fun ⟨v, hrom, hhalted⟩ => ?_
    exact ⟨ea, v, hhalted, hrom, rfl, absoluteStore_of_storeEa hea (by omega)⟩

end Sys2Proof.Machine
end

section
/-! SUPPORT. The encoding (spec/30_encoding.md): what the decoder reads is what the encoder writes, which opcode bytes have a row, and how a step uses the decoder (spec/40_execution_cycle.md R110, R126; spec/60_exceptions.md R253). -/

namespace Sys2Proof

/-! ### The decoder, row by row -/

/-- How a row reads an instruction off the front of a list of bytes, one case per format of R91. -/
inductive RowReads : List Byte → Instr → List Byte → Prop
  | f1 {op : Byte} {d : Descriptor} {i : Instr} {rest : List Byte} (hl : lookup op = some d)
      (hf : d.form = .f1 i) : RowReads (op :: rest) i rest
  | f2 {op b : Byte} {d : Descriptor} {build : Byte → Instr} {rest : List Byte} (hl : lookup op = some d)
      (hf : d.form = .f2 build) : RowReads (op :: b :: rest) (build b) rest
  | f3 {op lo hi : Byte} {d : Descriptor} {build : Byte → Byte → Instr} {rest : List Byte}
      (hl : lookup op = some d) (hf : d.form = .f3 build) : RowReads (op :: lo :: hi :: rest) (build lo hi) rest

/-- A byte without a row is refused by name, whatever follows it (R99). -/
theorem decode_of_lookup_none {op : Byte} (hl : lookup op = none) (rest : List Byte) :
    decode (op :: rest) = .error (.unimplemented op) := by
  simp only [decode, hl]

/-- After a byte with a row the decoder reads the row's instruction, or runs out of operand bytes (R92). -/
theorem decode_of_lookup_some {op : Byte} {d : Descriptor} (hl : lookup op = some d) (rest : List Byte) :
    decode (op :: rest) = .error (.truncated op) ∨
    ∃ i rest', decode (op :: rest) = .ok (i, rest') ∧ RowReads (op :: rest) i rest' := by
  cases hf : d.form with
  | f1 i => exact .inr ⟨i, rest, by simp only [decode, hl, hf], .f1 hl hf⟩
  | f2 build =>
    match rest with
    | [] => exact .inl (by simp only [decode, hl, hf])
    | b :: rest' => exact .inr ⟨build b, rest', by simp only [decode, hl, hf], .f2 hl hf⟩
  | f3 build =>
    match rest with
    | [] | [_] => exact .inl (by simp only [decode, hl, hf])
    | lo :: hi :: rest' => exact .inr ⟨build lo hi, rest', by simp only [decode, hl, hf], .f3 hl hf⟩

/-- Whatever the decoder answers, it read by a row of the table. -/
theorem rowReads_of_decode {bytes rest : List Byte} {i : Instr} (h : decode bytes = .ok (i, rest)) :
    RowReads bytes i rest := by
  match bytes with
  | [] => cases h
  | op :: tail =>
    cases hl : lookup op with
    | none => rw [decode_of_lookup_none hl] at h; cases h
    | some d =>
      rcases decode_of_lookup_some hl tail with htrunc | ⟨j, rest', hok, hreads⟩
      · rw [htrunc] at h; cases h
      · rw [hok] at h; cases h; exact hreads

/-! ### Decoder and encoder -/

/-- The bytes a row reads are the encoding of its instruction, and the bytes it leaves. -/
theorem RowReads.eq_encode_append {bytes rest : List Byte} {i : Instr} (h : RowReads bytes i rest) :
    bytes = encode i ++ rest := by
  cases h with
  | f1 hl hf | f2 hl hf | f3 hl hf =>
    have henc := lookup_encodes hl
    rw [Descriptor.Encodes, hf, (lookup_some hl).2] at henc
    simp [henc]

/-- Every instruction's encoding decodes to it, whatever follows (R90, R97). -/
theorem roundTrip (i : Instr) : Laws.RoundTrip.Statement i := by
  intro rest
  cases i <;> rfl

/-- Settles O2: a row reads exactly its own encoding, and every encoding is read back. -/
theorem decodeInvertsEncode : Obligations.DecodeInvertsEncode := by
  intro bytes i rest
  constructor
  · exact fun h => (rowReads_of_decode h).eq_encode_append
  · rintro rfl; exact roundTrip i rest

/-! ### The bytes without a row -/

/-- An encoding begins with its instruction's opcode byte (R90). -/
theorem head?_encode (i : Instr) : (encode i).head? = some i.opcode := by
  cases i <;> rfl

/-- A row's opcode byte begins an encoding: that of its form at any operand bytes. -/
theorem exists_encode_head?_of_lookup {op : Byte} {d : Descriptor} (hl : lookup op = some d) :
    ∃ i, (encode i).head? = some op := by
  have henc := lookup_encodes hl
  rw [Descriptor.Encodes, (lookup_some hl).2] at henc
  cases hf : d.form with
  | f1 i => rw [hf] at henc; exact ⟨i, by rw [henc]; rfl⟩
  | f2 build => rw [hf] at henc; exact ⟨build 0, by rw [henc]; rfl⟩
  | f3 build => rw [hf] at henc; exact ⟨build 0 0, by rw [henc]; rfl⟩

/-- A byte has no row exactly when it begins no encoding (R99). -/
theorem lookup_eq_none_iff (op : Byte) : lookup op = none ↔ ∀ i : Instr, (encode i).head? ≠ some op := by
  constructor
  · intro hnone i hhead
    rw [head?_encode, Option.some.injEq] at hhead
    have hsome := lookup_opcode_isSome i
    rw [hhead, hnone] at hsome
    cases hsome
  · intro hno
    cases hl : lookup op with
    | none => rfl
    | some d =>
      obtain ⟨i, hi⟩ := exists_encode_head?_of_lookup hl
      exact absurd hi (hno i)

/-- The decoder's error unimplemented is the lookup's failure and nothing else (R99). -/
theorem decode_unimplemented_iff (op : Byte) (rest : List Byte) :
    decode (op :: rest) = .error (.unimplemented op) ↔ lookup op = none := by
  constructor
  · intro h
    cases hl : lookup op with
    | none => rfl
    | some d => rcases decode_of_lookup_some hl rest with hd | ⟨i, rest', hd, -⟩ <;> rw [hd] at h <;> cases h
  · exact fun hl => decode_of_lookup_none hl rest

/-- A byte has a row exactly when it is one of the table's opcode bytes (R98). -/
theorem lookup_isSome_iff (op : Byte) : (lookup op).isSome = true ↔ op ∈ table.map Descriptor.op := by
  simp [lookup]

/-- All 256 bytes, each once. -/
def allBytes : List Byte := (List.range 256).map (BitVec.ofNat 8)

theorem mem_allBytes (op : Byte) : op ∈ allBytes :=
  List.mem_map.2 ⟨op.toNat, List.mem_range.2 op.isLt, BitVec.ofNat_toNat 8 op⟩

theorem allBytes_nodup : allBytes.Nodup := by
  refine List.nodup_range.map_on fun m hm n hn h => ?_
  rw [List.mem_range] at hm hn
  have htoNat := congrArg BitVec.toNat h
  rw [BitVec.toNat_ofNat, BitVec.toNat_ofNat] at htoNat
  omega

/-- As many bytes have a row as the table has rows, for no two rows have the same opcode byte (R97, R98). -/
theorem countP_lookup_isSome : allBytes.countP (fun op => (lookup op).isSome) = 46 := by
  have hperm : (allBytes.filter fun op => (lookup op).isSome).Perm (table.map Descriptor.op) :=
    (List.perm_ext_iff_of_nodup (allBytes_nodup.filter _) table_opcodes_nodup).2 fun op => by
      rw [List.mem_filter, lookup_isSome_iff]; exact and_iff_right (mem_allBytes op)
  rw [List.countP_eq_length_filter, hperm.length_eq]; rfl

/-- The other 210 bytes have no row (R99). -/
theorem countP_lookup_isNone : (List.range 256).countP (fun n => (lookup (BitVec.ofNat 8 n)).isNone) = 210 := by
  have hmap : allBytes.countP (fun op => (lookup op).isNone) =
      (List.range 256).countP (fun n => (lookup (BitVec.ofNat 8 n)).isNone) := List.countP_map
  have htotal := List.length_eq_countP_add_countP (fun op => (lookup op).isSome) (l := allBytes)
  rw [countP_lookup_isSome, show allBytes.length = 256 by simp [allBytes]] at htotal
  simp only [Bool.not_eq_true, Option.isSome_eq_false_iff, Bool.decide_eq_true] at htotal
  rw [← hmap]; omega

/-- Settles O3: both sides of the equivalence say that the byte has no row, and 46 of the 256 bytes have one. -/
theorem decoderRefusesTheOther210 : Obligations.DecoderRefusesTheOther210 :=
  ⟨fun op rest => (decode_unimplemented_iff op rest).trans (lookup_eq_none_iff op), countP_lookup_isNone⟩

/-- Settles O1: each sample is a closed run of the decoder. -/
theorem sampleWordsDecode : Obligations.SampleWordsDecode :=
  ⟨rfl, rfl, rfl, rfl, rfl, rfl, rfl, rfl, rfl, rfl, rfl, rfl⟩

end Sys2Proof

namespace Sys2Proof.Machine

/-! ### Fetching what the decoder reads -/

/-- An address stepped up is the natural one more, modulo 65536. -/
theorem addr_add_one (a : Addr) : a + 1 = BitVec.ofNat 16 ((a.toNat + 1) % 65536) := by
  apply BitVec.eq_of_toNat_eq; simp

/-- A fetch is a Bus read of PC with its side effects, and then PC one up (R110). -/
theorem fetch_eq_stated (s : State) : fetch s =
    (Stated.busByte s s.pc, { Stated.afterRead s s.pc with pc := BitVec.ofNat 16 ((s.pc.toNat + 1) % 65536) }) := by
  rw [fetch, memRead_fst, memRead_pc, addr_add_one, memRead_snd]; rfl

/-- The rule's successive fetches are the machine's, the first one taken off. -/
theorem fetches_cons {b : Byte} {bs : List Byte} {s t : State} (h : Stated.Fetches (b :: bs) s t) :
    (fetch s).1 = b ∧ Stated.Fetches bs (fetch s).2 t := by
  rw [fetch_eq_stated]; exact h

/-- Fetching the bytes that decode to an instruction yields that instruction and the post-fetch state (R92, R128). -/
theorem fetchInstr_of_fetches {bytes : List Byte} {i : Instr} {s t : State} (hd : decode bytes = .ok (i, []))
    (h : Stated.Fetches bytes s t) : fetchInstr s = (.ok i, t) := by
  cases rowReads_of_decode hd with
  | f1 hl hf =>
    obtain ⟨rfl, rfl⟩ := fetches_cons h
    exact fetchInstr_f1 hl hf
  | f2 hl hf =>
    obtain ⟨rfl, hb⟩ := fetches_cons h
    obtain ⟨rfl, rfl⟩ := fetches_cons hb
    exact fetchInstr_f2 hl hf
  | f3 hl hf =>
    obtain ⟨rfl, hlo⟩ := fetches_cons h
    obtain ⟨rfl, hhi⟩ := fetches_cons hlo
    obtain ⟨rfl, rfl⟩ := fetches_cons hhi
    exact fetchInstr_f3 hl hf

/-! ### The step -/

/-- The advance after an instruction is the rule's, state and frame signal (R126). -/
theorem advanceVideo_eq_stated (cost : Nat) (t : State) :
    advanceVideo cost t = (Stated.advanced cost t, Stated.frameCompleted cost t) := by
  cases ht : t.halted with
  | none => simp only [advanceVideo, Stated.advanced, Stated.frameCompleted, State.setPpu, ht, if_true]
  | some c => simp only [advanceVideo, Stated.advanced, Stated.frameCompleted, ht, reduceCtorEq, if_false]

/-- A running machine that fetches an instruction runs it and advances the VideoUnit (R111, R126). -/
theorem systemStep_of_fetchInstr_ok {s t : State} {i : Instr} (hrun : Running s) (hf : fetchInstr s = (.ok i, t)) :
    systemStep s = .next (Stated.advanced i.cost (effect i t), Stated.frameCompleted i.cost (effect i t)) := by
  rw [← advanceVideo_eq_stated]
  simp only [systemStep, show s.halted = none from hrun, hf, runInstr, exec_eq_effect]

/-- A running machine that fetches a byte without a row halts (R253). -/
theorem systemStep_of_fetchInstr_error {s t : State} {op : Byte} (hrun : Running s)
    (hf : fetchInstr s = (.error op, t)) :
    systemStep s = .next (Stated.haltedBy t (.unimplementedOpcode op s.pc), false) := by
  simp only [systemStep, show s.halted = none from hrun, hf]; rfl

/-- Settles O4: the fetches answer the decoded instruction, and every instruction answers a next state. -/
theorem stepRunsDecodedInstruction : Obligations.StepRunsDecodedInstruction := by
  intro bytes i s t hrun hd hfetches
  have hstep := systemStep_of_fetchInstr_ok hrun (fetchInstr_of_fetches hd hfetches)
  exact ⟨effect i t, exec_eq_effect i t, hstep, by rw [step, hstep]; rfl⟩

/-- Settles O5: the byte has no row, so its one fetch is all that is done before the halt. -/
theorem unimplementedOpcodeHalts : Obligations.UnimplementedOpcodeHalts := by
  intro s hrun hno
  have hl : lookup (fetch s).1 = none := by
    rw [fetch_eq_stated]; exact (lookup_eq_none_iff _).2 hno
  rw [step, systemStep_of_fetchInstr_error hrun (fetchInstr_none hl), fetch_eq_stated]; rfl

end Sys2Proof.Machine
end

section
/-! SUPPORT. The execution cycle (spec/40_execution_cycle.md): the flag rule, the stack's two operations together, the call and the return built on them (spec/42_control_transfer.md R170, R171), and a branch as a whole step (R119, R172). -/

namespace Sys2Proof.Machine

/-! ### The flag rule -/

/-- The status byte the flag rule leaves is the rule's own, bit by bit (R120). -/
theorem nz_nzByte (p v : Byte) : Stated.NZ p v (nzByte p v) := by
  refine ⟨?_, ?_, fun k hk h1 h7 => nzByte_getLsbD_other hk h1 h7⟩
  · rw [nzByte_getLsbD p v 1 (by decide), if_neg (by decide), if_pos rfl]; exact beq_iff_eq
  · rw [nzByte_getLsbD p v 7 (by decide), if_pos rfl]; rfl

/-- Settles O41: a byte that is 0 has bit 7 clear, so the two flags are never both set. -/
theorem flagRule : Obligations.FlagRule := by
  intro v s
  have hnz := nz_nzByte s.p v
  refine ⟨hnz, rfl, fun ⟨hz, hn⟩ => ?_⟩
  obtain ⟨hzero, hsign, -⟩ := hnz
  have hv : v = 0 := hzero.1 hz
  have hset : v.getLsbD 7 = true := hsign.symm.trans hn
  rw [hv] at hset
  cases hset

/-! ### The stack -/

/-- Settles O40: the pop reads the slot the push wrote. -/
theorem popUndoesPush : Obligations.PopUndoesPush := by
  intro v s
  refine ⟨_, push_eq v s, ?_⟩
  rw [pop_eq, State.setSP_sp, BitVec.add_sub_cancel]
  exact ⟨Memory.read_write_same _ _ _, rfl, rfl⟩

/-! ### The encoding side of a rule -/

/-- An instruction's row is its encoding and its cost: decoding and fetching follow from the encoding (R90, R128). -/
theorem row_encode (i : Instr) : Stated.Row i (encode i) i.cost := by
  have hd : decode (encode i) = .ok (i, []) := by simpa using roundTrip i []
  exact ⟨rfl, hd, rfl, fun _ _ => fetchInstr_of_fetches hd⟩

/-! ### Addresses and their bytes -/

/-- The absolute address is the rule's (R117). -/
theorem eaAbsolute_eq_stated (lo hi : Byte) : eaAbsolute lo hi = Stated.absolute lo hi := by
  rw [Stated.absolute, ← eaAbsolute_toNat, BitVec.ofNat_toNat, BitVec.setWidth_eq]

/-- The word of two bytes on naturals (R63). -/
theorem word_eq_ofNat (hi lo : Byte) : word hi lo = BitVec.ofNat 16 (256 * hi.toNat + lo.toNat) := by
  rw [← word_toNat, BitVec.ofNat_toNat, BitVec.setWidth_eq]

theorem highByte_eq_ofNat (a : Addr) : highByte a = BitVec.ofNat 8 (a.toNat / 256) := by
  rw [← highByte_toNat, BitVec.ofNat_toNat, BitVec.setWidth_eq]

theorem lowByte_eq_ofNat (a : Addr) : lowByte a = BitVec.ofNat 8 (a.toNat % 256) := by
  rw [← lowByte_toNat, BitVec.ofNat_toNat, BitVec.setWidth_eq]

theorem byte_add_one_toNat (b : Byte) : (b + 1).toNat = (b.toNat + 1) % 256 := BitVec.toNat_add b 1

theorem byte_sub_one_toNat (b : Byte) : (b - 1).toNat = (b.toNat + 255) % 256 := by
  rw [byte_sub_one, BitVec.toNat_ofNat, Nat.mod_mod]

theorem byte_add_two (b : Byte) : b + 1 + 1 = BitVec.ofNat 8 ((b.toNat + 2) % 256) := by
  rw [byte_add_one, byte_add_one_toNat, Nat.mod_add_mod]

/-- Two steps down, as the natural number that names the slot. -/
theorem byte_sub_two_toNat (b : Byte) : (b - 1 - 1).toNat = (b.toNat + 254) % 256 := by
  rw [byte_sub_one_toNat, byte_sub_one_toNat]; omega

/-! ### Call and return -/

theorem exec_jsr (lo hi : Byte) (s : State) : exec (.jsr lo hi) s = .next (callTo (eaAbsolute lo hi) s).state := rfl

theorem exec_rts (s : State) : exec .rts s = .next (returnFromCall s) := rfl

/-- Settles O14: both pushes land in work memory, so the call always completes. -/
theorem jsrPushesReturnAddress : Obligations.JsrPushesReturnAddress := by
  refine fun lo hi => ⟨row_encode (.jsr lo hi), fun s => ?_⟩
  rw [exec_jsr, callTo_state, eaAbsolute_eq_stated, byte_add_one_toNat, byte_add_two, highByte_eq_ofNat,
    lowByte_eq_ofNat]
  rfl

/-- Settles O15: both pops read work memory, and the second one's byte is the high half. -/
theorem rtsPopsReturnAddress : Obligations.RtsPopsReturnAddress := by
  refine ⟨row_encode .rts, fun s => ?_⟩
  rw [exec_rts, returnFromCall_eq, word_eq_ofNat, ← byte_sub_two_toNat, ← byte_sub_one_toNat, BitVec.ofNat_toNat,
    BitVec.setWidth_eq]
  rfl

/-- The slot after a slot of the stack page is another one, the page's wrap included. -/
theorem stackSlot_ne_next (b : Byte) : 0x100 + b.toNat ≠ 0x100 + (b + 1).toNat := by
  have := b.isLt
  rw [byte_add_one_toNat]; omega

/-- What a call leaves in its two slots: the halves of the return address (R170). -/
theorem callTo_slots (target : Addr) (s : State) :
    (callTo target s).state.ram.read (0x100 + s.sp.toNat) = highByte s.pc ∧
    (callTo target s).state.ram.read (0x100 + (s.sp + 1).toNat) = lowByte s.pc := by
  rw [callTo_state]
  constructor
  · exact (Memory.read_write_other _ _ _ _ (stackSlot_ne_next s.sp)).trans (Memory.read_write_same _ _ _)
  · exact Memory.read_write_same _ _ _

/-- Settles O16: the return pops the two bytes the call pushed, and they are the halves of the return address. -/
theorem callThenReturnRestores : Obligations.CallThenReturnRestores := by
  intro lo hi s t u hcall hsp hhigh hlow
  rw [exec_jsr] at hcall
  obtain rfl := Host.Outcome.next.inj hcall
  obtain ⟨hh, hl⟩ := callTo_slots (eaAbsolute lo hi) s
  rw [← byte_add_one_toNat] at hlow
  have hsp' : u.sp = s.sp + 1 + 1 := by rw [hsp, callTo_state]; rfl
  rw [exec_rts, returnFromCall_eq, hsp', BitVec.add_sub_cancel, BitVec.add_sub_cancel, hhigh, hh, hlow, hl,
    word_high_low]
  rfl

/-! ### A branch as a whole step -/

/-- The branch target is the rule's (R119). -/
theorem branchTarget_eq_stated (rel8 : Byte) (s : State) : branchTarget rel8 s = Stated.target s.pc rel8 := by
  rw [Stated.target, ← branchTarget_toNat, BitVec.ofInt_natCast, BitVec.ofNat_toNat, BitVec.setWidth_eq]

/-- A branch is the rule's: it tests its flag's bit of P, and moves PC alone (R172). -/
theorem branchWhen_eq_stated (f : Flag) (b : Bool) (rel8 : Byte) (s : State) : branchWhen f b rel8 s =
    if s.p.getLsbD f.bit = b then { s with pc := Stated.target s.pc rel8 } else s := by
  rw [← branchTarget_eq_stated]; rfl

theorem exec_bne (rel8 : Byte) (s : State) : exec (.bne rel8) s = .next (branchWhen .Z false rel8 s) := rfl

/-- BNE stays when Z, bit 1 of P, is set, and branches when it is clear (R179). -/
theorem branchWhen_bne_pc (rel8 : Byte) (s : State) : (branchWhen .Z false rel8 s).pc =
    if s.p.getLsbD 1 = true then s.pc else Stated.target s.pc rel8 := by
  rw [branchWhen_eq_stated, show Flag.Z.bit = 1 from rfl]
  cases s.p.getLsbD 1 <;> rfl

/-- The VideoUnit's advance leaves PC (R126). -/
@[simp] theorem advanced_pc (cost : Nat) (t : State) : (Stated.advanced cost t).pc = t.pc := by
  unfold Stated.advanced; split <;> rfl

/-- Fetching moves PC up by the number of bytes, modulo 65536 (R110). -/
theorem fetches_pc {bytes : List Byte} {s t : State} (h : Stated.Fetches bytes s t) :
    t.pc = BitVec.ofNat 16 ((s.pc.toNat + bytes.length) % 65536) := by
  induction bytes generalizing s with
  | nil =>
    rw [show t = s from h, List.length_nil, Nat.add_zero, Nat.mod_eq_of_lt s.pc.isLt, BitVec.ofNat_toNat,
      BitVec.setWidth_eq]
  | cons b bs ih =>
    obtain ⟨-, hrest⟩ := h
    rw [ih hrest]
    simp [Nat.add_assoc, Nat.add_comm 1]

/-- Fetching an instruction leaves the flags. -/
theorem fetchInstr_p {s t : State} {i : Instr} (h : fetchInstr s = (.ok i, t)) : t.p = s.p := by
  have hf := fetchInstr_fetched s
  rw [h] at hf
  obtain ⟨-, -, -, -, hp, -⟩ := hf.frame
  exact hp

/-- From a PC that was moved up modulo 65536, the target is the same as from the sum itself (R119). -/
theorem target_ofNat_mod (n : Nat) (rel8 : Byte) :
    Stated.target (BitVec.ofNat 16 (n % 65536)) rel8 = BitVec.ofInt 16 (((n : Int) + rel8.toInt) % 65536) := by
  rw [Stated.target, BitVec.toNat_ofNat, Nat.mod_mod, Int.natCast_mod]
  exact congrArg _ (Int.emod_add_emod _ _ _)

/-- Settles O18: the fetches move PC by two and leave Z, and after the branch nothing moves PC. -/
theorem branchStepMovesPC : Obligations.BranchStepMovesPC := by
  intro r s t u hrun hfetches hstep
  obtain ⟨-, hd, -, hfetch⟩ := row_encode (.bne r)
  obtain ⟨v, hexec, -, hnext⟩ := stepRunsDecodedInstruction _ _ s t hrun hd hfetches
  obtain rfl := Host.Outcome.next.inj (hstep.symm.trans hnext)
  obtain rfl := Host.Outcome.next.inj (hexec.symm.trans (exec_bne r t))
  have hpc : t.pc = BitVec.ofNat 16 ((s.pc.toNat + 2) % 65536) := fetches_pc hfetches
  rw [advanced_pc, branchWhen_bne_pc, fetchInstr_p (hfetch s t hfetches), hpc, target_ofNat_mod]
  rfl

end Sys2Proof.Machine
end

section
/-! SUPPORT. Loads and stores (spec/41_load_store.md): each form is its row, its addressing mode and one shared operation, so the loads share one lemma about a read and the stores one about a write. -/

namespace Sys2Proof.Machine

/-! ### The memory modes are the rules' -/

/-- The page-zero address is the rule's (R115). -/
theorem eaZeroPage_eq_stated (d8 : Byte) : eaZeroPage d8 = Stated.zeroPage d8 := by
  rw [Stated.zeroPage, ← eaZeroPage_toNat, BitVec.ofNat_toNat, BitVec.setWidth_eq]

/-- The page-zero address indexed by X is the rule's, its wrap within the page included (R116). -/
theorem eaZeroPageX_eq_stated (d8 : Byte) (s : State) : eaZeroPageX d8 s = Stated.zeroPageX d8 s := by
  rw [Stated.zeroPageX, ← eaZeroPageX_toNat, BitVec.ofNat_toNat, BitVec.setWidth_eq]

/-- The absolute address indexed by X is the rule's, X added to the whole base (R118, C2). -/
theorem eaAbsoluteX_eq_stated (lo hi : Byte) (s : State) : eaAbsoluteX lo hi s = Stated.absoluteX lo hi s := by
  rw [Stated.absoluteX, ← eaAbsoluteX_toNat, BitVec.ofNat_toNat, BitVec.setWidth_eq]

/-! ### Loads -/

/-- A load writes its register and P, and nothing else (R140). -/
theorem loadValue_eq (r : Reg) (v : Byte) (s : State) :
    loadValue r v s = { s.setReg r v with p := nzByte s.p v } := by
  rw [loadValue, setNZ, State.setReg_p]; rfl

/-- An instruction that loads its operand byte does as the immediate rule says (R140, R145, R148). -/
theorem loadsByte_of_loadValue {i : Instr} {v : Byte} (r : Reg) (h : ∀ s, exec i s = .next (loadValue r v s))
    (s : State) : ∃ q, Stated.NZ s.p v q ∧ exec i s = .next { s.setReg r v with p := q } :=
  ⟨nzByte s.p v, nz_nzByte s.p v, by rw [h, loadValue_eq]⟩

/-- An instruction that loads from the machine's effective address does as the rule says of the rule's address (R141). -/
theorem loadsFrom_of_loadFrom {i : Instr} {ea ea' : State → Addr} (r : Reg) (hea : ∀ s, ea s = ea' s)
    (h : ∀ s, exec i s = .next (loadFrom r (ea s) s)) : Stated.LoadsFrom i ea' fun s v => s.setReg r v := by
  intro s
  refine ⟨_, nz_nzByte s.p _, ?_⟩
  rw [h, hea, loadFrom, loadValue_eq, memRead_p, memRead_fst, memRead_snd]

/-- Settles O8: each form is its row and a load of A, immediate or from its mode's address. -/
theorem ldaLoadsAccumulator : Obligations.LdaLoadsAccumulator :=
  ⟨fun v => ⟨row_encode (.ldaImm v), loadsByte_of_loadValue .A fun _ => rfl⟩,
    fun d => ⟨row_encode (.ldaZp d), loadsFrom_of_loadFrom .A (fun _ => eaZeroPage_eq_stated d) fun _ => rfl⟩,
    fun d => ⟨row_encode (.ldaZpX d), loadsFrom_of_loadFrom .A (eaZeroPageX_eq_stated d) fun _ => rfl⟩,
    fun lo hi => ⟨row_encode (.ldaAbs lo hi),
      loadsFrom_of_loadFrom .A (fun _ => eaAbsolute_eq_stated lo hi) fun _ => rfl⟩,
    fun lo hi => ⟨row_encode (.ldaAbsX lo hi), loadsFrom_of_loadFrom .A (eaAbsoluteX_eq_stated lo hi) fun _ => rfl⟩⟩

/-- Settles O9: each form is its row and a load of X, immediate or from its mode's address. -/
theorem ldxLoadsIndexX : Obligations.LdxLoadsIndexX :=
  ⟨fun v => ⟨row_encode (.ldxImm v), loadsByte_of_loadValue .X fun _ => rfl⟩,
    fun d => ⟨row_encode (.ldxZp d), loadsFrom_of_loadFrom .X (fun _ => eaZeroPage_eq_stated d) fun _ => rfl⟩,
    fun lo hi => ⟨row_encode (.ldxAbs lo hi),
      loadsFrom_of_loadFrom .X (fun _ => eaAbsolute_eq_stated lo hi) fun _ => rfl⟩⟩

/-- Settles O10: each form is its row and a load of Y, immediate or from its mode's address. -/
theorem ldyLoadsIndexY : Obligations.LdyLoadsIndexY :=
  ⟨fun v => ⟨row_encode (.ldyImm v), loadsByte_of_loadValue .Y fun _ => rfl⟩,
    fun d => ⟨row_encode (.ldyZp d), loadsFrom_of_loadFrom .Y (fun _ => eaZeroPage_eq_stated d) fun _ => rfl⟩,
    fun d => ⟨row_encode (.ldyZpX d), loadsFrom_of_loadFrom .Y (eaZeroPageX_eq_stated d) fun _ => rfl⟩,
    fun lo hi => ⟨row_encode (.ldyAbs lo hi),
      loadsFrom_of_loadFrom .Y (fun _ => eaAbsolute_eq_stated lo hi) fun _ => rfl⟩,
    fun lo hi => ⟨row_encode (.ldyAbsX lo hi), loadsFrom_of_loadFrom .Y (eaAbsoluteX_eq_stated lo hi) fun _ => rfl⟩⟩

/-! ### Stores -/

/-- A store in page zero always completes, and names its work-memory cell by the address itself (R153). -/
theorem storeTo_pageZero (r : Reg) {ea : Addr} (h : ea.toNat < 0x100) (s : State) :
    (storeTo r ea s).outcome = .next { s with ram := s.ram.write ea.toNat (s.reg r) } := by
  rw [storeTo, memWrite_workMemory (by omega), Nat.mod_eq_of_lt (by omega)]; rfl

theorem storeTo_eaZeroPage (r : Reg) (d8 : Byte) (s : State) : (storeTo r (eaZeroPage d8) s).outcome =
    .next { s with ram := s.ram.write d8.toNat (s.reg r) } := by
  rw [storeTo_pageZero r ((eaZeroPage_toNat d8).trans_lt d8.isLt), eaZeroPage_toNat]

theorem storeTo_eaZeroPageX (r : Reg) (d8 : Byte) (s : State) : (storeTo r (eaZeroPageX d8 s) s).outcome =
    .next { s with ram := s.ram.write ((d8.toNat + s.x.toNat) % 256) (s.reg r) } := by
  rw [storeTo_pageZero r ((eaZeroPageX_toNat d8 s).trans_lt (Nat.mod_lt _ (by decide))), eaZeroPageX_toNat]

/-- An instruction that stores at the machine's effective address does as the rule says of the rule's address: it completes below program ROM and halts from there up (R153, R62). -/
theorem storesTo_of_storeTo {i : Instr} {ea ea' : State → Addr} (r : Reg) (hea : ∀ s, ea s = ea' s)
    (h : ∀ s, exec i s = (storeTo r (ea s) s).outcome) : Stated.StoresTo i ea' fun s => s.reg r := by
  intro s
  rw [h, hea, storeTo]
  constructor
  · intro hbelow
    rw [memWrite_below_programRom hbelow, Flow.outcome_goesOn]
  · intro hrom
    rw [memWrite_programRom hrom, Flow.outcome_halts]

/-- Settles O11: each form is its row and a store of A; the page-zero forms cannot reach program ROM. -/
theorem staStoresAccumulator : Obligations.StaStoresAccumulator :=
  ⟨fun d => ⟨row_encode (.staZp d), storeTo_eaZeroPage .A d⟩,
    fun d => ⟨row_encode (.staZpX d), storeTo_eaZeroPageX .A d⟩,
    fun lo hi => ⟨row_encode (.staAbs lo hi),
      storesTo_of_storeTo .A (fun _ => eaAbsolute_eq_stated lo hi) fun _ => rfl⟩,
    fun lo hi => ⟨row_encode (.staAbsX lo hi), storesTo_of_storeTo .A (eaAbsoluteX_eq_stated lo hi) fun _ => rfl⟩⟩

/-- Settles O12: each form is its row and a store of X; the page-zero form cannot reach program ROM. -/
theorem stxStoresIndexX : Obligations.StxStoresIndexX :=
  ⟨fun d => ⟨row_encode (.stxZp d), storeTo_eaZeroPage .X d⟩,
    fun lo hi => ⟨row_encode (.stxAbs lo hi),
      storesTo_of_storeTo .X (fun _ => eaAbsolute_eq_stated lo hi) fun _ => rfl⟩⟩

/-- Settles O13: each form is its row and a store of Y; the page-zero forms cannot reach program ROM. -/
theorem styStoresIndexY : Obligations.StyStoresIndexY :=
  ⟨fun d => ⟨row_encode (.styZp d), storeTo_eaZeroPage .Y d⟩,
    fun d => ⟨row_encode (.styZpX d), storeTo_eaZeroPageX .Y d⟩,
    fun lo hi => ⟨row_encode (.styAbs lo hi),
      storesTo_of_storeTo .Y (fun _ => eaAbsolute_eq_stated lo hi) fun _ => rfl⟩⟩

end Sys2Proof.Machine
end

section
/-! SUPPORT. The branches and JMP (spec/42_control_transfer.md R172 to R181): each is its row and one write of PC, and a jump to itself leaves the state to the VideoUnit's advance (R126, R286). -/

namespace Sys2Proof.Machine

/-! ### Branches -/

/-- An instruction that branches on a flag does as the rule says of that flag's bit of P (R172). -/
theorem branchesOn_of_branchWhen {i : Byte → Instr} (f : Flag) (b : Bool)
    (h : ∀ rel8 s, exec (i rel8) s = .next (branchWhen f b rel8 s)) : Stated.BranchesOn i f.bit b := by
  intro rel8 s
  rw [h, branchWhen_eq_stated]

/-- Settles O17: each branch is its row and a test of its own flag. -/
theorem branchesFollowTheirFlag : Obligations.BranchesFollowTheirFlag :=
  ⟨fun r => row_encode (.bpl r), branchesOn_of_branchWhen .N false fun _ _ => rfl,
    fun r => row_encode (.bmi r), branchesOn_of_branchWhen .N true fun _ _ => rfl,
    fun r => row_encode (.bvc r), branchesOn_of_branchWhen .V false fun _ _ => rfl,
    fun r => row_encode (.bvs r), branchesOn_of_branchWhen .V true fun _ _ => rfl,
    fun r => row_encode (.bcc r), branchesOn_of_branchWhen .C false fun _ _ => rfl,
    fun r => row_encode (.bcs r), branchesOn_of_branchWhen .C true fun _ _ => rfl,
    fun r => row_encode (.bne r), branchesOn_of_branchWhen .Z false exec_bne,
    fun r => row_encode (.beq r), branchesOn_of_branchWhen .Z true fun _ _ => rfl⟩

/-! ### JMP -/

theorem exec_jmp (lo hi : Byte) (s : State) : exec (.jmp lo hi) s = .next (s.setPC (eaAbsolute lo hi)) := rfl

/-- Settles O19: the machine's absolute address is the rule's, and PC alone takes it. -/
theorem jmpSetsPC : Obligations.JmpSetsPC := by
  refine fun lo hi => ⟨row_encode (.jmp lo hi), fun s => ?_⟩
  rw [exec_jmp, eaAbsolute_eq_stated]; rfl

/-! ### A jump to itself -/

/-- Fetches that leave the VideoUnit as it was have moved PC alone (R56, R110). -/
theorem Fetched.eq_setPC {s t : State} (h : Fetched s t) (hppu : t.ppu = s.ppu) : t = s.setPC t.pc := by
  obtain ⟨ha, hx, hy, hsp, hp, hram, hhalted, hparams, -⟩ := h.frame
  cases t
  subst ha hx hy hsp hp hram hhalted hparams hppu
  rfl

/-- The advance after an instruction changes the VideoUnit's counters and picture alone (R126, R234). -/
theorem advanced_of_running (cost : Nat) {s : State} (hrun : Running s) :
    ∃ n m f, Stated.advanced cost s = { s with ppu := { s.ppu with cycle := n, scanline := m, fb := f } } := by
  obtain ⟨n, m, f, hv⟩ := Ppu.run_same s.params (3 * cost) s.ppu
  exact ⟨n, m, f, by rw [Stated.advanced, if_pos (show s.halted = none from hrun), hv]⟩

/-- Settles O20: the fetches move PC alone and the jump puts it back, so the VideoUnit advances from the state before the step. -/
theorem jumpToSelfIdles : Obligations.JumpToSelfIdles := by
  intro lo hi s t hrun hfetches hppu hself
  obtain ⟨-, hd, -, hfetch⟩ := row_encode (.jmp lo hi)
  obtain ⟨u, hexec, -, hstep⟩ := stepRunsDecodedInstruction _ _ s t hrun hd hfetches
  have hfetched : Fetched s t := by
    have hf := fetchInstr_fetched s
    rwa [hfetch s t hfetches] at hf
  have hback : u = s := by
    obtain rfl := Host.Outcome.next.inj (hexec.symm.trans (exec_jmp lo hi t))
    rw [hfetched.eq_setPC hppu, eaAbsolute_eq_stated, ← hself]; rfl
  obtain ⟨n, m, f, hadv⟩ := advanced_of_running (Instr.jmp lo hi).cost hrun
  exact ⟨n, m, f, by rw [hstep, hback, hadv]⟩

end Sys2Proof.Machine
end

section
/-! SUPPORT. INC, DEC and the register steps (spec/43_inc_dec.md R190 to R201): each form is its row, its addressing mode and one shared operation, which reads, writes and then follows the new byte with the flags. -/

namespace Sys2Proof.Machine

/-! ### The two steps of a byte are the rules' -/

/-- `(v + 1) mod 256` on naturals (R124). -/
theorem incByte_eq_stated (b : Byte) : incByte b = BitVec.ofNat 8 (Stated.inc256 b.toNat) := byte_add_one b

/-- `(v - 1) mod 256` on naturals (R124). -/
theorem decByte_eq_stated (b : Byte) : decByte b = BitVec.ofNat 8 (Stated.dec256 b.toNat) := byte_sub_one b

/-! ### INC and DEC on memory -/

/-- A Bus read leaves the flags (R56). -/
@[simp] theorem afterRead_p (s : State) (a : Addr) : (Stated.afterRead s a).p = s.p := by
  rw [← memRead_snd, memRead_p]

/-- A Bus write leaves the flags (R59). -/
@[simp] theorem afterWrite_p (s : State) (a : Addr) (v : Byte) : (Stated.afterWrite s a v).p = s.p := by
  unfold Stated.afterWrite
  split_ifs <;> rfl

/-- A read of program ROM has no side effect (R56). -/
theorem afterRead_programRom {a : Addr} (h : 0x8000 ≤ a.toNat) (s : State) : Stated.afterRead s a = s :=
  if_neg fun ⟨_, hlt, _⟩ => absurd hlt (by omega)

/-- Below program ROM the new byte is written after the read, and the flags follow it (R190). -/
theorem modifyMemory_below_programRom (f : Byte → Byte) {ea : Addr} (h : ea.toNat < 0x8000) (s : State) :
    modifyMemory f ea s = .goesOn
      { Stated.afterWrite (Stated.afterRead s ea) ea (f (Stated.busByte s ea)) with
        p := nzByte s.p (f (Stated.busByte s ea)) } := by
  rw [modifyMemory, memRead_fst, memRead_snd, memWrite_below_programRom h, Flow.andThen_goesOn, setNZ, afterWrite_p,
    afterRead_p]
  rfl

/-- In program ROM the write is fatal, and the flags are not reached (R62, R258). -/
theorem modifyMemory_programRom (f : Byte → Byte) {ea : Addr} (h : 0x8000 ≤ ea.toNat) (s : State) :
    modifyMemory f ea s = .halts (Stated.haltedBy s (.romWrite ea (f (Stated.busByte s ea)))) := by
  rw [modifyMemory, memRead_fst, memRead_snd, afterRead_programRom h, memWrite_programRom h, Flow.andThen_halts]

/-- An instruction that modifies the byte at the machine's effective address does as the rule says of the rule's address and the rule's step on naturals (R190). -/
theorem modifies_of_modifyMemory {i : Instr} {ea ea' : State → Addr} {f : Byte → Byte} {n : Nat → Nat}
    (hf : ∀ b, f b = BitVec.ofNat 8 (n b.toNat)) (hea : ∀ s, ea s = ea' s)
    (h : ∀ s, exec i s = (modifyMemory f (ea s) s).outcome) : Stated.Modifies i ea' n := by
  intro s
  rw [h, hea, ← hf]
  constructor
  · intro hbelow
    exact ⟨_, nz_nzByte s.p _, by rw [modifyMemory_below_programRom f hbelow, Flow.outcome_goesOn]⟩
  · intro hrom
    rw [modifyMemory_programRom f hrom, Flow.outcome_halts]

/-- Settles O21: each form is its row and an increment at its mode's address. -/
theorem incIncrementsMemory : Obligations.IncIncrementsMemory :=
  ⟨fun d => ⟨row_encode (.incZp d),
      modifies_of_modifyMemory incByte_eq_stated (fun _ => eaZeroPage_eq_stated d) fun _ => rfl⟩,
    fun d => ⟨row_encode (.incZpX d),
      modifies_of_modifyMemory incByte_eq_stated (eaZeroPageX_eq_stated d) fun _ => rfl⟩,
    fun lo hi => ⟨row_encode (.incAbs lo hi),
      modifies_of_modifyMemory incByte_eq_stated (fun _ => eaAbsolute_eq_stated lo hi) fun _ => rfl⟩,
    fun lo hi => ⟨row_encode (.incAbsX lo hi),
      modifies_of_modifyMemory incByte_eq_stated (eaAbsoluteX_eq_stated lo hi) fun _ => rfl⟩⟩

/-- Settles O22: each form is its row and a decrement at its mode's address. -/
theorem decDecrementsMemory : Obligations.DecDecrementsMemory :=
  ⟨fun d => ⟨row_encode (.decZp d),
      modifies_of_modifyMemory decByte_eq_stated (fun _ => eaZeroPage_eq_stated d) fun _ => rfl⟩,
    fun d => ⟨row_encode (.decZpX d),
      modifies_of_modifyMemory decByte_eq_stated (eaZeroPageX_eq_stated d) fun _ => rfl⟩,
    fun lo hi => ⟨row_encode (.decAbs lo hi),
      modifies_of_modifyMemory decByte_eq_stated (fun _ => eaAbsolute_eq_stated lo hi) fun _ => rfl⟩,
    fun lo hi => ⟨row_encode (.decAbsX lo hi),
      modifies_of_modifyMemory decByte_eq_stated (eaAbsoluteX_eq_stated lo hi) fun _ => rfl⟩⟩

/-! ### INX, INY, DEX, DEY -/

/-- A register step is a load of the register's new byte (R198). -/
theorem modifyReg_eq_loadValue (f : Byte → Byte) (r : Reg) (s : State) :
    modifyReg f r s = loadValue r (f (s.reg r)) s := rfl

/-- An instruction that steps a register does as the rule says of the rule's step on naturals (R198). -/
theorem stepsReg_of_modifyReg {i : Instr} {f : Byte → Byte} {n : Nat → Nat} (r : Reg)
    (hf : ∀ b, f b = BitVec.ofNat 8 (n b.toNat)) (h : ∀ s, exec i s = .next (modifyReg f r s)) (s : State) :
    ∃ q, Stated.NZ s.p (BitVec.ofNat 8 (n (s.reg r).toNat)) q ∧
      exec i s = .next { s.setReg r (BitVec.ofNat 8 (n (s.reg r).toNat)) with p := q } := by
  rw [h, ← hf, modifyReg_eq_loadValue, loadValue_eq]
  exact ⟨_, nz_nzByte s.p _, rfl⟩

/-- Settles O23: each is its row and a step of its own register. -/
theorem indexRegistersStep : Obligations.IndexRegistersStep :=
  ⟨⟨row_encode .inx, stepsReg_of_modifyReg .X incByte_eq_stated fun _ => rfl⟩,
    ⟨row_encode .iny, stepsReg_of_modifyReg .Y incByte_eq_stated fun _ => rfl⟩,
    ⟨row_encode .dex, stepsReg_of_modifyReg .X decByte_eq_stated fun _ => rfl⟩,
    ⟨row_encode .dey, stepsReg_of_modifyReg .Y decByte_eq_stated fun _ => rfl⟩⟩

end Sys2Proof.Machine
end

section
/-! SUPPORT. SEI (spec/44_flag_ops.md R210): its row, and the one flag it writes. -/

namespace Sys2Proof.Machine

/-- SEI is the flag write and always completes (R210). -/
theorem exec_sei (s : State) : exec .sei s = .next (setIRQDisable s) := rfl

/-- SEI's flag write changes P alone (R210). -/
theorem setIRQDisable_eq (s : State) : setIRQDisable s = { s with p := (setIRQDisable s).p } := rfl

/-- Settles O25: SEI is its row and the write of bit 2, and the flag write's bits say which of P's it leaves. -/
theorem seiSetsIRQDisable : Obligations.SeiSetsIRQDisable := by
  refine ⟨row_encode .sei, fun s => ⟨(setIRQDisable s).p, ?_, fun k hk hne => ?_, ?_⟩⟩
  · rw [setIRQDisable_getLsbD s 2 (by decide), if_pos rfl]
  · rw [setIRQDisable_getLsbD s k hk, if_neg hne]
  · rw [exec_sei, ← setIRQDisable_eq]

end Sys2Proof.Machine
end

section
/-! SUPPORT. The VideoUnit's ports and the picture (spec/47_video_unit.md): the address latch and the two acting ports on naturals, the tile and the row it is drawn in, and the loop of `ppu.run`. -/

namespace Sys2Proof.Machine

/-! ### The address latch -/

/-- A latch that was set to a 14-bit address holds it (R225). -/
theorem cur_atAddress (u : Ppu) {n : Nat} (h : n < 0x4000) : Stated.cur (Stated.atAddress u n) = n := by
  simp only [Stated.cur, Stated.atAddress, BitVec.toNat_ofNat]; omega

theorem succ14_lt (n : Nat) : Stated.succ14 n < 0x4000 := Nat.mod_lt _ (by decide)

/-- The first write of a pair takes the high half, raw (R227). -/
theorem Ppu.writeAddress_highNext {u : Ppu} (h : u.toggle = .highNext) (v : Byte) :
    u.writeAddress v = { u with latchHi := v, toggle := .lowNext } := by
  rw [Ppu.writeAddress_eq_stated, Stated.afterAddressWrite, if_pos h]

/-- A pair of address writes sets the latch to the completed address, masked to 14 bits (R227). -/
theorem Ppu.writeAddress_pair {u : Ppu} (h : u.toggle = .highNext) (hi lo : Byte) :
    (u.writeAddress hi).writeAddress lo =
      Stated.atAddress { u with toggle := .highNext } ((256 * hi.toNat + lo.toNat) % 0x4000) := by
  rw [Ppu.writeAddress_highNext h, Ppu.writeAddress_eq_stated, Stated.afterAddressWrite,
    if_neg (by decide : ¬ Toggle.lowNext = Toggle.highNext)]
  rfl

theorem Ppu.cur_writeAddress_pair {u : Ppu} (h : u.toggle = .highNext) (hi lo : Byte) :
    Stated.cur ((u.writeAddress hi).writeAddress lo) = (256 * hi.toNat + lo.toNat) % 0x4000 := by
  rw [Ppu.writeAddress_pair h, cur_atAddress _ (Nat.mod_lt _ (by decide))]

/-- The mask to 14 bits leaves the low half of a completed address (R225). -/
theorem atAddress_mask14_latchLo (u : Ppu) (hi lo : Byte) :
    (Stated.atAddress u ((256 * hi.toNat + lo.toNat) % 0x4000)).latchLo = lo := by
  apply BitVec.eq_of_toNat_eq
  simp only [Stated.atAddress, BitVec.toNat_ofNat]; omega

/-- The mask to 14 bits leaves the high half's low six bits (R225). -/
theorem atAddress_mask14_latchHi_toNat (u : Ppu) (hi lo : Byte) :
    (Stated.atAddress u ((256 * hi.toNat + lo.toNat) % 0x4000)).latchHi.toNat = hi.toNat % 0x40 := by
  simp only [Stated.atAddress, BitVec.toNat_ofNat]; omega

/-- Settles O42: each write is one half of the rule's pair, and the third begins a pair from the latch the second left. -/
theorem addressPortPairs : Obligations.AddressPortPairs := by
  intro u hi lo next h
  have hfirst := Ppu.writeAddress_highNext h hi
  have hpair := Ppu.writeAddress_pair h hi lo
  have hlo := atAddress_mask14_latchLo { u with toggle := .highNext } hi lo
  have htoggle : ((u.writeAddress hi).writeAddress lo).toggle = .highNext := by rw [hpair]; rfl
  refine ⟨by rw [hfirst], by rw [hfirst], by rw [hfirst], Ppu.cur_writeAddress_pair h hi lo, ?_, ?_, htoggle, ?_⟩
  · rw [hpair, atAddress_mask14_latchHi_toNat]
  · rw [hpair, hlo]
  · rw [Ppu.writeAddress_highNext htoggle, hpair, hlo]; rfl

/-- Settles O47: the masked address fits in the latch. -/
theorem setAddressResetsTheToggle : Obligations.SetAddressResetsTheToggle := by
  refine fun u a => ⟨?_, rfl, rfl⟩
  have hset : u.setAddress a = Stated.atAddress { u with toggle := .highNext } (a.toNat % 0x4000) := by
    rw [Ppu.setAddress, Ppu.setCur_eq_stated, toNat_and_mask14]; rfl
  rw [hset, cur_atAddress _ (Nat.mod_lt _ (by decide))]

/-! ### The data port -/

/-- What the rule's read leaves in the latch is the next address (R226, R230). -/
theorem cur_afterPortRead (u : Ppu) : Stated.cur (Stated.afterPortRead u) = Stated.succ14 (Stated.cur u) :=
  cur_atAddress _ (succ14_lt _)

/-- What the rule's write leaves in the latch is the next address (R229, R230). -/
theorem cur_afterPortWrite (u : Ppu) (v : Byte) :
    Stated.cur (Stated.afterPortWrite u v) = Stated.succ14 (Stated.cur u) :=
  cur_atAddress _ (succ14_lt _)

/-- A read refills the buffer from the latch address (R226). -/
theorem Ppu.read_readBuffer (u : Ppu) : u.read.2.readBuffer = u.vram.read (Stated.cur u) := by
  rw [Ppu.read_snd_eq_stated]; rfl

/-- Settles O43: the read is the rule's, and its advance stays within 14 bits. -/
theorem dataPortReadIsBuffered : Obligations.DataPortReadIsBuffered := fun u =>
  ⟨Ppu.read_fst u, Ppu.read_readBuffer u, by rw [Ppu.read_snd_eq_stated, cur_afterPortRead, Stated.succ14],
    Ppu.read_latchHi_le u, Ppu.read_toggle u, Ppu.read_vram u, Ppu.read_cycle u, Ppu.read_scanline u, Ppu.read_fb u⟩

/-- Settles O44: the first read refills the buffer from the address just set, and the second returns the buffer. -/
theorem secondReadReturnsTheByte : Obligations.SecondReadReturnsTheByte := by
  intro u hi lo h
  constructor
  · rw [Ppu.read_fst, Ppu.writeAddress_readBuffer, Ppu.writeAddress_readBuffer]
  · rw [Ppu.read_fst, Ppu.read_readBuffer, Ppu.cur_writeAddress_pair h, Ppu.writeAddress_vram, Ppu.writeAddress_vram]

/-- Settles O45: the write is the rule's, one memory cell and the advance. -/
theorem dataPortWriteStores : Obligations.DataPortWriteStores := by
  intro u v
  have hvram : (u.writeData v).vram = u.vram.write (Stated.cur u) v := by rw [Ppu.writeData_eq_stated]; rfl
  refine ⟨?_, fun k hk => ?_, ?_, Ppu.writeData_latchHi_le v u, Ppu.writeData_readBuffer v u,
    Ppu.writeData_toggle v u, Ppu.writeData_cycle v u, Ppu.writeData_scanline v u, Ppu.writeData_fb v u⟩
  · rw [hvram, Memory.read_write_same]
  · rw [hvram, Memory.read_write_other _ _ _ _ hk]
  · rw [Ppu.writeData_eq_stated, cur_afterPortWrite, Stated.succ14]

/-! ### The ports on the Bus -/

section
variable {a : Addr} (h : Stated.IsDataPort a) (s : State)
include h

/-- At the data port a read returns the buffer (R54). -/
theorem busByte_of_dataPort : Stated.busByte s a = s.ppu.readBuffer := by
  rw [← memRead_fst, memRead_of_dataPort s h]

theorem afterRead_of_dataPort : Stated.afterRead s a = { s with ppu := Stated.afterPortRead s.ppu } := if_pos h

theorem afterWrite_of_dataPort (v : Byte) :
    Stated.afterWrite s a v = { s with ppu := Stated.afterPortWrite s.ppu v } := by
  have ⟨h2, _, h7⟩ := h
  rw [Stated.afterWrite, if_neg (by omega), if_neg (by omega), if_pos h]

end

/-- Settles O24: INC's read returns the stale buffer and moves the latch on, and its write stores at the address after. -/
theorem incOnDataPortUsesStaleBuffer : Obligations.IncOnDataPortUsesStaleBuffer := by
  intro lo hi s h
  have ⟨_, h4, _⟩ := h
  obtain ⟨-, -, habsolute, -⟩ := incIncrementsMemory
  obtain ⟨-, hmodifies⟩ := habsolute lo hi
  obtain ⟨hbelow, -⟩ := hmodifies s
  obtain ⟨q, -, hexec⟩ := hbelow (h4.trans (by decide))
  rw [busByte_of_dataPort h, afterRead_of_dataPort h, afterWrite_of_dataPort h] at hexec
  refine ⟨_, hexec, rfl, ?_, ?_, rfl⟩
  · exact congrArg (fun n => s.ppu.vram.write n _) (cur_afterPortRead s.ppu)
  · rw [cur_afterPortWrite, cur_afterPortRead, Stated.succ14, Stated.succ14, Nat.mod_add_mod]

/-- Settles O46: at offset 7 alone a read acts, and at offsets 6 and 7 alone a write does. -/
theorem otherPortsAreInert : Obligations.OtherPortsAreInert := by
  intro a v s h2 h4
  constructor
  · intro h7
    rcases memRead_cases a s with ⟨h, -⟩ | ⟨-, -, h, -⟩ | ⟨-, -, -, hread⟩ | ⟨h, -⟩ | ⟨h, -⟩
    case inr.inr.inl => exact hread
    all_goals omega
  · intro h5
    rcases memWrite_cases a v s with ⟨h, -⟩ | ⟨-, -, h, -⟩ | ⟨-, -, h, -⟩ | ⟨-, -, -, -, hwrite⟩ | ⟨h, -⟩ | ⟨h, -⟩
    case inr.inr.inr.inl => exact hwrite
    all_goals omega

/-! ### Tiles and rows -/

/-- A bit of a byte as the rule counts it (R6). -/
theorem bit_eq_toNat_getLsbD (v : Byte) (k : Nat) : Stated.bit v k = (v.getLsbD k).toNat := by
  rw [Stated.bit, BitVec.getLsbD, Nat.toNat_testBit]

/-- A pixel's colour index is the rule's: the high plane's bit counts twice (R232). -/
theorem tilePixel_toNat (chr : Memory) (i y x : Nat) : (tilePixel chr i y x).toNat = Stated.tile chr i y x := by
  have hpair (high low : Bool) : (BitVec.ofBool high ++ BitVec.ofBool low).toNat = 2 * high.toNat + low.toNat := by
    cases high <;> cases low <;> rfl
  rw [tilePixel, hpair, Stated.tile, bit_eq_toNat_getLsbD, bit_eq_toNat_getLsbD]

/-- Settles O48: the colour index holds the two planes' bits. -/
theorem tileDecoding : Obligations.TileDecoding := fun chr i y x _ _ => tilePixel_toNat chr i y x

/-- The palette's value of a colour index is the rule's (R236). -/
theorem colour_eq_stated (pal : Palette) (i : BitVec 2) : pal.colour i = Stated.colour pal i.toNat := by
  unfold Palette.colour Stated.colour
  split
  case h_1 h | h_2 h | h_3 h => simp [h]
  case h_4 h0 h1 h2 => rw [if_neg h0, if_neg h1, if_neg h2]

/-- The value a row gives a pixel is the rule's (R235). -/
theorem rowPixel_eq_stated (q : Params) (vram : Memory) (r y x : Nat) : rowPixel q vram r y x =
    Stated.colour q.palette (Stated.tile q.chr (vram.read (0x2000 + 32 * r + x / 8)).toNat y (x % 8)) := by
  rw [rowPixel, colour_eq_stated, tilePixel_toNat]

theorem FrameBuffer.cell_eq (y x : Nat) : FrameBuffer.cell y x = 256 * y + x := rfl

/-- Settles O49: the row's cells are the 2048 from `2048 * r` on, and cell `256 * y + x` of them is pixel `(y, x)`. -/
theorem buildRowDrawsItsTiles : Obligations.BuildRowDrawsItsTiles := by
  refine fun q r u => ⟨fun y x hy hx => ?_, fun y x hx hout => ?_, rfl⟩
  · have hrow : (256 * (8 * r + y) + x - 2048 * r) / 256 = y := by omega
    have hcolumn : (256 * (8 * r + y) + x - 2048 * r) % 256 = x := by omega
    rw [FrameBuffer.pixel, FrameBuffer.cell_eq, Ppu.buildRow_read, if_pos (by omega), hrow, hcolumn, rowPixel_eq_stated]
  · rw [FrameBuffer.pixel, FrameBuffer.cell_eq, Ppu.buildRow_read, if_neg (by omega)]; rfl

/-! ### The loop of `ppu.run` -/

/-- One time round the loop is the rule's scanline (R234). -/
theorem Ppu.line_eq_stated (q : Params) (u : Ppu) : u.line q = Stated.oneLine q u := by
  simp only [Ppu.line, Ppu.frameIfDone, Ppu.rowIfDue, Ppu.nextLine, buildsRow_iff, Stated.oneLine]

/-- The accumulated cycles alone say how often the loop goes round (R234). -/
theorem Ppu.run_zero (q : Params) (u : Ppu) : u.run q 0 = Ppu.lines q (u.cycle / 341) u := Ppu.run_eq q 0 u

/-- Settles O50: from 341 cycles up the loop goes round once more than from the 341 fewer that the line leaves. -/
theorem runIsTheScanlineLoop : Obligations.RunIsTheScanlineLoop := by
  intro q n u
  rw [Ppu.run_eq]
  constructor
  · intro hlt
    rw [Nat.div_eq_of_lt hlt]; rfl
  · intro hle
    have hfuel : (u.cycle + n) / 341 = ((u.addCycles n).line q).1.cycle / 341 + 1 := by
      rw [Ppu.line_cycle, Ppu.addCycles_cycle]; omega
    rw [hfuel, Ppu.lines_succ, if_pos (show 341 ≤ (u.addCycles n).cycle from hle), ← Ppu.run_zero, Ppu.line_eq_stated]
    rfl

end Sys2Proof.Machine
end

section
/-! SUPPORT. Nothing the CPU sees depends on the picture (spec/10_state.md R40, R41, spec/40_execution_cycle.md R126): every operation but the VideoUnit's advance commutes with `State.withoutPicture`, and the advance changes nothing that it keeps. -/

namespace Sys2Proof.Machine

variable (s : State)

/-! ### The operations commute -/

@[simp] theorem withoutPicture_reg (r : Reg) : s.withoutPicture.reg r = s.reg r := by cases r <;> rfl

/-- The VideoUnit without its counters and its picture. -/
def Ppu.withoutPicture (u : Ppu) : Ppu := { u with cycle := 0, scanline := 0, fb := [] }

theorem afterAddressWrite_withoutPicture (u : Ppu) (v : Byte) :
    Stated.afterAddressWrite u.withoutPicture v = (Stated.afterAddressWrite u v).withoutPicture := by
  unfold Stated.afterAddressWrite
  rw [show u.withoutPicture.toggle = u.toggle from rfl]
  split <;> rfl

@[simp] theorem busByte_withoutPicture (a : Addr) : Stated.busByte s.withoutPicture a = Stated.busByte s a := rfl

@[simp] theorem afterRead_withoutPicture (a : Addr) :
    Stated.afterRead s.withoutPicture a = (Stated.afterRead s a).withoutPicture := by
  unfold Stated.afterRead
  split <;> rfl

@[simp] theorem afterWrite_withoutPicture (a : Addr) (v : Byte) :
    Stated.afterWrite s.withoutPicture a v = (Stated.afterWrite s a v).withoutPicture := by
  have hport : Stated.afterAddressWrite s.withoutPicture.ppu v = (Stated.afterAddressWrite s.ppu v).withoutPicture :=
    afterAddressWrite_withoutPicture s.ppu v
  unfold Stated.afterWrite
  rw [hport]
  split_ifs <;> rfl

@[simp] theorem setReg_withoutPicture (r : Reg) (v : Byte) :
    s.withoutPicture.setReg r v = (s.setReg r v).withoutPicture := by
  cases r <;> rfl

theorem loadValue_withoutPicture (r : Reg) (v : Byte) :
    loadValue r v s.withoutPicture = (loadValue r v s).withoutPicture := by
  rw [loadValue, setReg_withoutPicture]; rfl

theorem loadFrom_withoutPicture (r : Reg) (ea : Addr) :
    loadFrom r ea s.withoutPicture = (loadFrom r ea s).withoutPicture := by
  simp only [loadFrom, memRead_fst, memRead_snd, busByte_withoutPicture, afterRead_withoutPicture,
    loadValue_withoutPicture]

theorem storeTo_withoutPicture (r : Reg) (ea : Addr) :
    (storeTo r ea s.withoutPicture).state = (storeTo r ea s).state.withoutPicture := by
  rw [storeTo, storeTo, withoutPicture_reg]
  by_cases h : ea.toNat < 0x8000
  · rw [memWrite_below_programRom h, memWrite_below_programRom h, afterWrite_withoutPicture]; rfl
  · rw [memWrite_programRom (by omega), memWrite_programRom (by omega)]; rfl

theorem modifyMemory_withoutPicture (f : Byte → Byte) (ea : Addr) :
    (modifyMemory f ea s.withoutPicture).state = (modifyMemory f ea s).state.withoutPicture := by
  by_cases h : ea.toNat < 0x8000
  · rw [modifyMemory_below_programRom f h, modifyMemory_below_programRom f h, busByte_withoutPicture,
      afterRead_withoutPicture, afterWrite_withoutPicture]
    rfl
  · rw [modifyMemory_programRom f (by omega), modifyMemory_programRom f (by omega), busByte_withoutPicture]; rfl

theorem callTo_withoutPicture (target : Addr) :
    (callTo target s.withoutPicture).state = (callTo target s).state.withoutPicture := by
  rw [callTo_state, callTo_state]; rfl

theorem returnFromCall_withoutPicture : returnFromCall s.withoutPicture = (returnFromCall s).withoutPicture := by
  rw [returnFromCall_eq, returnFromCall_eq]; rfl

theorem branchWhen_withoutPicture (f : Flag) (b : Bool) (rel8 : Byte) :
    branchWhen f b rel8 s.withoutPicture = (branchWhen f b rel8 s).withoutPicture := by
  rw [branchWhen_eq_setPC, branchWhen_eq_setPC]; rfl

/-- Every instruction does the same without the picture (R282). -/
theorem effect_withoutPicture (i : Instr) : effect i s.withoutPicture = (effect i s).withoutPicture := by
  cases i
  case ldaImm | ldxImm | ldyImm | inx | iny | dex | dey => exact loadValue_withoutPicture s _ _
  case ldaZp | ldaZpX | ldaAbs | ldaAbsX | ldxZp | ldxAbs | ldyZp | ldyZpX | ldyAbs | ldyAbsX =>
    exact loadFrom_withoutPicture s _ _
  case staZp | staZpX | staAbs | staAbsX | stxZp | stxAbs | styZp | styZpX | styAbs =>
    exact storeTo_withoutPicture s _ _
  case incZp | incZpX | incAbs | incAbsX | decZp | decZpX | decAbs | decAbsX =>
    exact modifyMemory_withoutPicture s _ _
  case jsr => exact callTo_withoutPicture s _
  case rts => exact returnFromCall_withoutPicture s
  case bpl | bmi | bvc | bvs | bcc | bcs | bne | beq => exact branchWhen_withoutPicture s _ _ _
  case jmp | sei => rfl

/-- A fetch does the same without the picture (R110). -/
@[simp] theorem fetch_withoutPicture : fetch s.withoutPicture = ((fetch s).1, (fetch s).2.withoutPicture) := by
  have hread : Stated.afterRead s.withoutPicture s.pc = (Stated.afterRead s s.pc).withoutPicture :=
    afterRead_withoutPicture s s.pc
  rw [fetch_eq_stated, fetch_eq_stated, show s.withoutPicture.pc = s.pc from rfl, hread]; rfl

/-- Fetching an instruction does the same without the picture (R128). -/
theorem fetchInstr_withoutPicture :
    fetchInstr s.withoutPicture = ((fetchInstr s).1, (fetchInstr s).2.withoutPicture) := by
  have hop : (fetch s.withoutPicture).1 = (fetch s).1 := by rw [fetch_withoutPicture]
  cases hl : lookup (fetch s).1 with
  | none =>
    rw [fetchInstr_none hl, fetchInstr_none (hop ▸ hl), fetch_withoutPicture]
  | some d =>
    have hl' : lookup (fetch s.withoutPicture).1 = some d := hop ▸ hl
    cases hf : d.form with
    | f1 i => rw [fetchInstr_f1 hl hf, fetchInstr_f1 hl' hf, fetch_withoutPicture]
    | f2 build => simp only [fetchInstr_f2 hl hf, fetchInstr_f2 hl' hf, fetch_withoutPicture]
    | f3 build => simp only [fetchInstr_f3 hl hf, fetchInstr_f3 hl' hf, fetch_withoutPicture]

/-! ### The step -/

/-- The VideoUnit's advance changes nothing but the picture and the counters (R234). -/
theorem advanced_withoutPicture (cost : Nat) : (Stated.advanced cost s).withoutPicture = s.withoutPicture := by
  unfold Stated.advanced
  split
  case isTrue =>
    obtain ⟨n, m, f, hv⟩ := Ppu.run_same s.params (3 * cost) s.ppu
    rw [hv]; rfl
  case isFalse => rfl

/-- What a step of a running machine leaves before the VideoUnit advances: the fetched instruction's effect, or the halt of an opcode byte without a row (R126, R253). -/
def stepBeforeAdvance (s : State) : State :=
  match fetchInstr s with
  | (.ok i, t) => effect i t
  | (.error op, t) => Stated.haltedBy t (.unimplementedOpcode op s.pc)

theorem stepBeforeAdvance_withoutPicture :
    stepBeforeAdvance s.withoutPicture = (stepBeforeAdvance s).withoutPicture := by
  unfold stepBeforeAdvance
  rw [fetchInstr_withoutPicture]
  rcases fetchInstr s with ⟨op | i, t⟩
  · rfl
  · exact effect_withoutPicture t i

variable {s}

/-- A running machine always steps, and the advance at the end of the step changes nothing but the picture. -/
theorem step_of_running (hrun : Running s) :
    ∃ t, step s = .next t ∧ t.withoutPicture = (stepBeforeAdvance s).withoutPicture := by
  unfold stepBeforeAdvance
  rcases hf : fetchInstr s with ⟨op | i, t⟩
  · exact ⟨_, by rw [step, systemStep_of_fetchInstr_error hrun hf]; rfl, rfl⟩
  · exact ⟨_, by rw [step, systemStep_of_fetchInstr_ok hrun hf]; rfl, advanced_withoutPicture _ _⟩

/-- A halted machine has no step (R252). -/
theorem step_of_halted {c : FatalCause} (h : s.halted = some c) : step s = .fault (.halted c) := by
  simp only [step, systemStep, h, stateOnly]

/-- Settles O35: both machines are halted by the same cause, or both leave before the advance what the state without its picture does. -/
theorem pictureNeverReachesTheCpu : Obligations.PictureNeverReachesTheCpu := by
  intro s s' hsame
  have hhalted : s.halted = s'.halted := congrArg (·.halted) hsame
  cases h : s.halted with
  | some c =>
    rw [step_of_halted h, step_of_halted (hhalted.symm.trans h)]
    refine ⟨fun _ hnext => ?_, fun _ hfault => hfault⟩
    cases hnext
  | none =>
    obtain ⟨t, hstep, ht⟩ := step_of_running h
    obtain ⟨t', hstep', ht'⟩ := step_of_running (hhalted.symm.trans h)
    have htt' : t.withoutPicture = t'.withoutPicture := by
      rw [ht, ht', ← stepBeforeAdvance_withoutPicture, ← stepBeforeAdvance_withoutPicture, hsame]
    rw [hstep]
    refine ⟨fun u hu => ⟨t', hstep', Host.Outcome.next.inj hu ▸ htt'⟩, fun _ hfault => ?_⟩
    cases hfault

end Sys2Proof.Machine
end

section
/-! SUPPORT. What stops the machine (spec/60_exceptions.md R250, R252, R255). -/

namespace Sys2Proof.Machine

/-- Settles O6: a halt record is the whole cause of a fault, and without one the fetched instruction, or the halt of a byte without a row, is a next state. -/
theorem onlyAHaltStopsTheMachine : Obligations.OnlyAHaltStopsTheMachine := by
  refine ⟨fun _ _ hhalted => step_of_halted hhalted, fun _ hrunning => ?_⟩
  obtain ⟨t, hstep, -⟩ := step_of_running hrunning
  exact ⟨t, hstep⟩

end Sys2Proof.Machine
end

section
/-! SUPPORT. What a boot image loads (spec/70_reset_and_hazards.md R273). -/

namespace Sys2Proof.Machine

/-- The first byte of `memoryOfBytes` decides no other address. -/
theorem read_memoryOfBytes_cons_other {at0 k : Nat} (v : Byte) (vs : List Byte) (h : k ≠ at0) :
    Memory.read (memoryOfBytes at0 (v :: vs)) k = Memory.read (memoryOfBytes (at0 + 1) vs) k := by
  rw [memoryOfBytes]
  split
  · rfl
  · exact if_neg h

/-- `memoryOfBytes` lists no cell below its first address. -/
theorem read_memoryOfBytes_below (bytes : List Byte) {at0 k : Nat} (h : k < at0) :
    Memory.read (memoryOfBytes at0 bytes) k = Memory.unlisted := by
  induction bytes generalizing at0 with
  | nil => rfl
  | cons v vs ih =>
    rw [read_memoryOfBytes_cons_other v vs h.ne]
    exact ih (Nat.lt_succ_of_lt h)

/-- The first byte of `memoryOfBytes` stands at its first address, listed or not. -/
theorem read_memoryOfBytes_cons_first (at0 : Nat) (v : Byte) (vs : List Byte) :
    Memory.read (memoryOfBytes at0 (v :: vs)) at0 = v := by
  rw [memoryOfBytes]
  split
  next hv => exact (read_memoryOfBytes_below vs at0.lt_succ_self).trans hv.symm
  · exact if_pos rfl

/-- Byte `j` stands `j` addresses after the first; past the last byte nothing is listed. -/
theorem read_memoryOfBytes (bytes : List Byte) (at0 j : Nat) :
    Memory.read (memoryOfBytes at0 bytes) (at0 + j) = bytes.getD j Memory.unlisted := by
  induction bytes generalizing at0 j with
  | nil => rfl
  | cons v vs ih =>
    cases j with
    | zero => exact read_memoryOfBytes_cons_first at0 v vs
    | succ j =>
      rw [read_memoryOfBytes_cons_other v vs (by omega), Nat.add_comm j 1, ← Nat.add_assoc, ih,
        Nat.add_comm 1 j, List.getD_cons_succ]

/-- A block of an image as a memory: cell `k` is byte `k` of the block, which starts `offset` bytes into the image. -/
theorem read_memoryOfBytes_block (image : List Byte) (offset : Nat) {size k : Nat} (h : k < size) :
    Memory.read (memoryOfBytes 0 ((image.drop offset).take size)) k = image.getD (offset + k) 0 := by
  have hread := read_memoryOfBytes ((image.drop offset).take size) 0 k
  rw [Nat.zero_add] at hread
  rw [hread, List.getD_eq_getElem?_getD, List.getElem?_take_of_lt h, List.getElem?_drop,
    ← List.getD_eq_getElem?_getD]
  rfl

/-- An image whose header names one program unit and some graphics units, and which holds both blocks, passes every test of `ofImage`; each memory is one block of it, counted from the image's first byte. -/
theorem ofImage_of_oneProgramUnit {image : List Byte} (hprg : image.getD 4 0 = 1) (hchr : (image.getD 5 0).toNat ≠ 0)
    (hlen : headerSize + Config.prgSize + (image.getD 5 0).toNat * Config.chrUnit ≤ image.length) :
    ofImage image = .ok
      (memoryOfBytes 0 ((image.drop headerSize).take Config.prgSize),
        memoryOfBytes 0 ((image.drop (headerSize + Config.prgSize)).take ((image.getD 5 0).toNat * Config.chrUnit))) := by
  have hone : ¬ (image.getD 4 0).toNat ≠ 1 := by rw [hprg]; decide
  rw [ofImage, if_neg (by omega), if_neg hone, if_neg hchr, if_neg (by omega), ← List.drop_drop]

/-- Settles O52: such an image loads, and each of its two blocks is read at its own offset. -/
theorem bootImageLayout : Obligations.BootImageLayout := by
  rintro image _ hprg rfl hunits hlen
  have hcomm : 8192 * (image.getD 5 0).toNat = (image.getD 5 0).toNat * Config.chrUnit := Nat.mul_comm _ _
  rw [hcomm] at hlen ⊢
  exact ⟨_, _, ofImage_of_oneProgramUnit hprg (Nat.one_le_iff_ne_zero.1 hunits) hlen,
    fun _ hk => read_memoryOfBytes_block image headerSize hk,
    fun _ hk => read_memoryOfBytes_block image (headerSize + Config.prgSize) hk⟩

end Sys2Proof.Machine
end
